-- ==== Sys2Proof/Word.lean ====
section
/-! DEFINITION. The cell of the tape and the three operand modes. -/

namespace Sys2Proof

/-- One tape cell: a 64-bit signed integer (rules R5, R7, R32).
Its value as an integer is `BitVec.toInt`; every rule reads it so, and none reads single bits. -/
abbrev Cell := BitVec 64

/-- How a parameter is interpreted (rule R84): digit 0, 1 and 2 in this order. -/
inductive Mode where
  /-- Mode 0, "address mode", called position mode: the parameter is an address. -/
  | position
  /-- Mode 1: the parameter is the value itself. -/
  | immediate
  /-- Mode 2: the parameter is an offset from the relative base. -/
  | relative
deriving DecidableEq, Repr

end Sys2Proof
end

