-- ==== Sys2Proof/Syntax.lean ====
section
/-! DEFINITION. The instructions: one constructor per row of spec/opcode_table.json (rules R86, R88). -/

namespace Sys2Proof

/-- An instruction as its opcode cell gives it (rules R81, R83, R86): the modes of the parameters it uses, in
parameter order, and the mode digits of the parameters it does not use (`x`…), which the core ignores (rule R85).
The operands themselves are the parameter cells, read from the tape while the instruction runs (rule R114). -/
inductive Instr where
  /-- ADD (opcode 1), modes of a, b, dst. -/
  | add (m1 m2 m3 : Mode)
  /-- MUL (opcode 2), modes of a, b, dst. -/
  | mul (m1 m2 m3 : Mode)
  /-- IN (opcode 3), mode of dst. -/
  | inp (m1 : Mode) (x2 x3 : Nat)
  /-- OUT (opcode 4), mode of a. -/
  | out (m1 : Mode) (x2 x3 : Nat)
  /-- JT (opcode 5), modes of a and target. -/
  | jt (m1 m2 : Mode) (x3 : Nat)
  /-- JF (opcode 6), modes of a and target. -/
  | jf (m1 m2 : Mode) (x3 : Nat)
  /-- LT (opcode 7), modes of a, b, dst. -/
  | lt (m1 m2 m3 : Mode)
  /-- EQ (opcode 8), modes of a, b, dst. -/
  | eq (m1 m2 m3 : Mode)
  /-- ARB (opcode 9), mode of a. -/
  | arb (m1 : Mode) (x2 x3 : Nat)
  /-- HLT (opcode 99). -/
  | hlt (x1 x2 x3 : Nat)
deriving DecidableEq, Repr

end Sys2Proof
end

