-- ==== Sys2Proof/WellFormed.lean ====
section
/-! DEFINITION. Which terms of `Instr` an opcode cell can hold. -/

namespace Sys2Proof

/-- A mode digit is a decimal digit (rule R83: "each 0–9"). -/
def isDigit (x : Nat) : Bool := x ≤ 9

/-- The digits an instruction does not use are still decimal digits of its cell (rules R83, R85).
The modes it uses are legal by their type. -/
def Instr.wellFormed : Instr → Bool
  | .add _ _ _ => true
  | .mul _ _ _ => true
  | .inp _ x2 x3 => isDigit x2 && isDigit x3
  | .out _ x2 x3 => isDigit x2 && isDigit x3
  | .jt _ _ x3 => isDigit x3
  | .jf _ _ x3 => isDigit x3
  | .lt _ _ _ => true
  | .eq _ _ _ => true
  | .arb _ x2 x3 => isDigit x2 && isDigit x3
  | .hlt x1 x2 x3 => isDigit x1 && isDigit x2 && isDigit x3

end Sys2Proof
end

