-- ==== Sys2Proof/Decode.lean ====
section
/-! DEFINITION. The decoder, total on every cell and rejecting by name, and after it the encoder
(spec/30_encoding.md, spec/opcode_table.json). -/

namespace Sys2Proof

/-- The record `Instr(op, m1, m2, m3)` of rule R83: the opcode and three mode digits, none of them checked yet. -/
structure Fields where
  op : Nat
  m1 : Nat
  m2 : Nat
  m3 : Nat
deriving DecidableEq, Repr

/-- Why a cell is no instruction (rule R89). -/
inductive Reject where
  /-- The cell is below 0 or above 99999 (`Invalid` of rule R83). -/
  | notDecimal (raw : Int)
  /-- The opcode is 0 or 10 to 98. -/
  | unknownOpcode (op : Nat)
  /-- A used mode digit is 3 to 9 (rule R85). -/
  | illegalMode (raw : Int)
deriving DecidableEq, Repr

/-- `digit_k(v)` of rule R7. -/
def digit (k v : Nat) : Nat := v / 10 ^ k % 10

/-- `Decode(raw)` of rule R83; `none` is `Invalid`. -/
def decodeFields (c : Cell) : Option Fields :=
  if c.toInt < 0 ∨ 99999 < c.toInt then none
  else
    let raw := c.toInt.toNat
    some { op := raw % 100, m1 := digit 2 raw, m2 := digit 3 raw, m3 := digit 4 raw }

/-- Rule R84. -/
def Mode.ofDigit (d : Nat) : Option Mode :=
  if d = 0 then some .position
  else if d = 1 then some .immediate
  else if d = 2 then some .relative
  else none

/-- Use the mode a used digit stands for; a digit of 3 to 9 makes the instruction illegal (rule R85). -/
def withMode (raw : Int) (d : Nat) (k : Mode → Except Reject Instr) : Except Reject Instr :=
  match Mode.ofDigit d with
  | some m => k m
  | none => .error (.illegalMode raw)

/-- The decoding of a four-cell instruction with three used modes (format F4 of rule R86). -/
def withModes3 (raw : Int) (f : Fields) (k : Mode → Mode → Mode → Instr) : Except Reject Instr :=
  withMode raw f.m1 fun m1 => withMode raw f.m2 fun m2 => withMode raw f.m3 fun m3 => .ok (k m1 m2 m3)

/-- The decoding of a jump (format F3 of rule R86): the third digit is unused. -/
def withModes2 (raw : Int) (f : Fields) (k : Mode → Mode → Nat → Instr) : Except Reject Instr :=
  withMode raw f.m1 fun m1 => withMode raw f.m2 fun m2 => .ok (k m1 m2 f.m3)

/-- The decoding of a two-cell instruction (formats F2W and F2R of rule R86): two digits are unused. -/
def withModes1 (raw : Int) (f : Fields) (k : Mode → Nat → Nat → Instr) : Except Reject Instr :=
  withMode raw f.m1 fun m1 => .ok (k m1 f.m2 f.m3)

/-- The opcode map (rule R88), in the order of rule R111: halt first, then the opcodes 1 to 9 with the modes they
use (rule R86), and every other opcode unknown (rule R89). -/
def classify (raw : Int) (f : Fields) : Except Reject Instr :=
  if f.op = 99 then .ok (.hlt f.m1 f.m2 f.m3)
  else if f.op = 1 then withModes3 raw f .add
  else if f.op = 2 then withModes3 raw f .mul
  else if f.op = 3 then withModes1 raw f .inp
  else if f.op = 4 then withModes1 raw f .out
  else if f.op = 5 then withModes2 raw f .jt
  else if f.op = 6 then withModes2 raw f .jf
  else if f.op = 7 then withModes3 raw f .lt
  else if f.op = 8 then withModes3 raw f .eq
  else if f.op = 9 then withModes1 raw f .arb
  else .error (.unknownOpcode f.op)

/-- The whole decoder: every cell is an instruction or is rejected by name (rules R83, R85, R88, R89). -/
def decode (c : Cell) : Except Reject Instr :=
  match decodeFields c with
  | none => .error (.notDecimal c.toInt)
  | some f => classify c.toInt f

/-- The opcode of an instruction (rule R88). -/
def Instr.opcode : Instr → Nat
  | .add _ _ _ => 1
  | .mul _ _ _ => 2
  | .inp _ _ _ => 3
  | .out _ _ _ => 4
  | .jt _ _ _ => 5
  | .jf _ _ _ => 6
  | .lt _ _ _ => 7
  | .eq _ _ _ => 8
  | .arb _ _ _ => 9
  | .hlt _ _ _ => 99

/-- `NPARAM(op)`: the number of parameter cells (rule R86). -/
def Instr.nparam : Instr → Nat
  | .add _ _ _ => 3
  | .mul _ _ _ => 3
  | .inp _ _ _ => 1
  | .out _ _ _ => 1
  | .jt _ _ _ => 2
  | .jf _ _ _ => 2
  | .lt _ _ _ => 3
  | .eq _ _ _ => 3
  | .arb _ _ _ => 1
  | .hlt _ _ _ => 0

/-- The digit of a mode (rule R84). -/
def Mode.digit : Mode → Nat
  | .position => 0
  | .immediate => 1
  | .relative => 2

/-- The number an opcode cell holds: `op + 100·m1 + 1000·m2 + 10000·m3` (rule R81). -/
def encodeNat : Instr → Nat
  | .add m1 m2 m3 => 1 + 100 * m1.digit + 1000 * m2.digit + 10000 * m3.digit
  | .mul m1 m2 m3 => 2 + 100 * m1.digit + 1000 * m2.digit + 10000 * m3.digit
  | .inp m1 x2 x3 => 3 + 100 * m1.digit + 1000 * x2 + 10000 * x3
  | .out m1 x2 x3 => 4 + 100 * m1.digit + 1000 * x2 + 10000 * x3
  | .jt m1 m2 x3 => 5 + 100 * m1.digit + 1000 * m2.digit + 10000 * x3
  | .jf m1 m2 x3 => 6 + 100 * m1.digit + 1000 * m2.digit + 10000 * x3
  | .lt m1 m2 m3 => 7 + 100 * m1.digit + 1000 * m2.digit + 10000 * m3.digit
  | .eq m1 m2 m3 => 8 + 100 * m1.digit + 1000 * m2.digit + 10000 * m3.digit
  | .arb m1 x2 x3 => 9 + 100 * m1.digit + 1000 * x2 + 10000 * x3
  | .hlt x1 x2 x3 => 99 + 100 * x1 + 1000 * x2 + 10000 * x3

/-- The encoder: the opcode cell of an instruction. -/
def encode (i : Instr) : Cell := BitVec.ofNat 64 (encodeNat i)

/-- The cells of an instruction with its operands: the opcode cell, then the parameter cells (rules R80, R91). -/
def assemble (i : Instr) (operands : List Cell) : List Cell := encode i :: operands.take i.nparam

/-- An operand of the assembler syntax (rule R91): `n`, `#n` or `@n`. -/
structure Operand where
  mode : Mode
  value : Cell
deriving DecidableEq, Repr

/-- A line of the assembler syntax (rule R91), with its operands in parameter order; absent modes are 0. -/
inductive AsmLine where
  | add (a b dst : Operand)
  | mul (a b dst : Operand)
  | inp (dst : Operand)
  | out (a : Operand)
  | jt (a target : Operand)
  | jf (a target : Operand)
  | lt (a b dst : Operand)
  | eq (a b dst : Operand)
  | arb (a : Operand)
  | hlt
  /-- `DATA v1, v2, …` -/
  | data (values : List Cell)
deriving DecidableEq, Repr

/-- The cells a line stands for (rule R91). -/
def AsmLine.cells : AsmLine → List Cell
  | .add a b d => assemble (.add a.mode b.mode d.mode) [a.value, b.value, d.value]
  | .mul a b d => assemble (.mul a.mode b.mode d.mode) [a.value, b.value, d.value]
  | .inp d => assemble (.inp d.mode 0 0) [d.value]
  | .out a => assemble (.out a.mode 0 0) [a.value]
  | .jt a t => assemble (.jt a.mode t.mode 0) [a.value, t.value]
  | .jf a t => assemble (.jf a.mode t.mode 0) [a.value, t.value]
  | .lt a b d => assemble (.lt a.mode b.mode d.mode) [a.value, b.value, d.value]
  | .eq a b d => assemble (.eq a.mode b.mode d.mode) [a.value, b.value, d.value]
  | .arb a => assemble (.arb a.mode 0 0) [a.value]
  | .hlt => assemble (.hlt 0 0 0) []
  | .data values => values

/-- The program a listing stands for (rule R91). -/
def assembleProgram (listing : List AsmLine) : List Cell := listing.flatMap AsmLine.cells

/-- Cell `k` of the bits `w`: each cell is 64 bits, the first cell the least significant (log 11). -/
def tableCell (w k : Nat) : Cell := BitVec.ofNat 64 (w / 2 ^ (64 * k))

/-- The instruction the decoder reads from the bits `w` of an instruction, every bit at or above `nbits` being 0.
The decoder reads the opcode cell alone (rule R83), so the parameter cells do not matter. -/
def decodeTableWord (nbits w : Nat) : Option Instr :=
  match decode (tableCell (w % 2 ^ nbits) 0) with
  | .ok i => some i
  | .error _ => none

end Sys2Proof
end

