-- ==== Sys2Proof/Config.lean ====
section
/-! DEFINITION. The parameters of one core instance (rules R5, R6): `TAPE_CAP` and `GrowLen`, as plain data. -/

namespace Sys2Proof

/-- One row of a growth policy: an access to `addr` when the tape holds `len` cells grows it by `extra` cells
more than the smallest growth of rule R55. -/
structure GrowRow where
  len : Nat
  addr : Nat
  extra : Nat
deriving DecidableEq, Repr

/-- The two parameters the spec leaves open (rule R5; D3, D4), fixed for an instance before reset (rule R6).
`GrowLen` is written as the cells granted beyond the smallest growth `min(TAPE_CAP, a + 3)` of rule R55:
`growDefault`, unless a row says otherwise for that length and address (log 2). `Machine.growLen` reads it. -/
structure Config where
  tapeCap : Nat
  growDefault : Nat
  growRows : List GrowRow
deriving DecidableEq, Repr

/-- The bound rule R5 puts on `TAPE_CAP`. The bounds of rule R55 on `GrowLen` hold by the form of `Machine.growLen`. -/
abbrev Config.wf (c : Config) : Prop := 1 ≤ c.tapeCap ∧ c.tapeCap ≤ 2 ^ 62

/-- The reference choice of rule R56: `TAPE_CAP` = 2^62 and the smallest growth the document allows. -/
def Config.reference : Config := { tapeCap := 2 ^ 62, growDefault := 0, growRows := [] }

end Sys2Proof
end

