-- ==== Sys2Proof/Machine/State.lean ====
section
/-! DEFINITION. The state of one core instance (spec/10_state.md), the reasons a step can answer without a next
state, and the state after reset. -/

namespace Sys2Proof.Machine

/-- The engine state and stop reasons of rule R28. -/
inductive StopReason where
  | notStarted
  | running
  | finished
  | exhausted
  | inputEmpty
  | unknownOpcode
  | negativeAddress
  | invalidMode
  | overflow
  | capacityExceeded
deriving DecidableEq, Repr

/-- The status register (rule R27). `info` is a 65-bit signed value; its range is part of `State.Inv`. -/
structure Status where
  reason : StopReason
  info : Int
deriving DecidableEq, Repr

/-- What the host may do to the core (rule R124). Its reads change nothing and are functions of the state. -/
inductive HostAction where
  /-- reset / load(program), rule R350. -/
  | load (program : List Cell)
  /-- run(batch), rule R120. -/
  | run (batch : List Cell)
  /-- write `T[a]`, rule R124. -/
  | writeCell (a : Nat) (v : Cell)
  /-- read and discard the leftover input, rule R124. -/
  | discardInput
deriving DecidableEq, Repr

/-- The tape: (address, cell) pairs. In its canonical form (`Memory.wf`) the addresses rise strictly and no entry
is 0, which is what an unlisted cell reads as (rule R58). -/
abbrev Memory := List (Nat × Cell)

/-- The canonical form of a tape. -/
abbrev Memory.wf (m : Memory) : Prop := m.Pairwise (fun e f => e.1 < f.1) ∧ ∀ e ∈ m, e.2 ≠ 0

/-- The state of rule R20, with two fields of the model's own: the instance's parameters, which nothing writes
(rule R6, log 2), and the host actions still to come, which no instruction reads (log 4). -/
structure State where
  /-- `T` (rule R32). -/
  tape : Memory
  /-- The tape length (rule R33). -/
  len : Nat
  /-- The instruction pointer (rule R22). -/
  ip : Nat
  /-- The relative base (rule R24). -/
  rb : Cell
  /-- The status register (rule R27). -/
  status : Status
  /-- The input queue, front first (rule R34). -/
  inq : List Cell
  /-- The output log (rule R35). -/
  outlog : List Cell
  /-- The instance's `TAPE_CAP` and `GrowLen` (rules R5, R6). -/
  cfg : Config
  /-- The host's actions still to come, oldest first. -/
  pending : List HostAction
deriving DecidableEq, Repr

/-- The host's view of a stopped core (rule R37): the document's RunState with `rb` and `status.info`. -/
structure RunState where
  ip : Nat
  rb : Cell
  outlog : List Cell
  status : Status
deriving DecidableEq, Repr

/-- Faults of `Host.Outcome`. No instruction raises one: every stop of the core is a next state (rule R305, log 17). -/
inductive Fault where
  /-- Raised by the host's `writeCell` at an address at or past `len`, a cell that does not exist (rule R124).
  Safe: the machine stops where the spec gives the host no such action (log 8). -/
  | hostWriteOutside (a : Nat)
deriving DecidableEq, Repr

/-- Refusals of `Host.Outcome`. -/
inductive Refusal where
  /-- Raised by an arm of `exec` whose instruction has no meaning yet; no arm is. Safe. -/
  | notModelled (mnemonic : String)
  /-- Raised by the host's `load` of a program longer than `TAPE_CAP`: "a model refuses it" (rule R350). Safe (log 9). -/
  | programTooLong (n : Nat)
deriving DecidableEq, Repr

/-- The state right after reset (rules R38, R350), for the empty program (log 7) and the reference parameters of
rule R56 (log 3), with no host action to come (log 4). `Machine.loaded` is the reset with a program. -/
def State.reset : State where
  tape := []
  len := 0
  ip := 0
  rb := 0
  status := { reason := .notStarted, info := 0 }
  inq := []
  outlog := []
  cfg := Config.reference
  pending := []

end Sys2Proof.Machine
end

