-- ==== Sys2Proof/Machine/Ops.lean ====
section
/-! DEFINITION. The named operations over the tape and the registers: access, growth, fetch, and the stop, which is
this machine's exception entry (spec/20_memory.md, spec/40_engine.md). -/

namespace Sys2Proof.Machine

/-! ### The tape as data -/

/-- The listed cell at `a`, or 0 (rule R58). -/
def Memory.read : Memory → Nat → Cell
  | [], _ => 0
  | (b, v) :: m, a => if a = b then v else Memory.read m a

/-- Put an entry for `a` where the rising order wants it. -/
def Memory.insertCell (a : Nat) (v : Cell) : Memory → Memory
  | [] => [(a, v)]
  | e :: m => if a < e.1 then (a, v) :: e :: m else e :: Memory.insertCell a v m

/-- Store `v` at `a`, keeping the canonical form: a 0 is not listed. -/
def Memory.write (m : Memory) (a : Nat) (v : Cell) : Memory :=
  let others := m.filter fun e => e.1 != a
  if v = 0 then others else Memory.insertCell a v others

/-- Set the cells at `lo ≤ b < hi` to 0. -/
def Memory.zeroFill (m : Memory) (lo hi : Nat) : Memory := m.filter fun e => e.1 < lo || hi ≤ e.1

/-- The tape that holds `cells` at `a`, `a + 1`, …, and nothing else. -/
def Memory.ofCells (a : Nat) : List Cell → Memory
  | [] => []
  | v :: vs => if v = 0 then Memory.ofCells (a + 1) vs else (a, v) :: Memory.ofCells (a + 1) vs

/-! ### Growth -/

/-- The cells a growth policy grants beyond the smallest growth. -/
def growExtra (dflt : Nat) : List GrowRow → Nat → Nat → Nat
  | [], _, _ => dflt
  | r :: rs, len, a => if r.len = len ∧ r.addr = a then r.extra else growExtra dflt rs len a

/-- `GrowLen(len, a)` (rules R5, R55): at least `min(TAPE_CAP, a + 3)`, at most `TAPE_CAP`, a function of `len` and
`a` alone. -/
def growLen (c : Config) (len a : Nat) : Nat :=
  min c.tapeCap (a + 3 + growExtra c.growDefault c.growRows len a)

/-- `Grow(a)` (rule R55): the new cells are zero, the old ones stay. -/
def State.grow (s : State) (a : Nat) : State :=
  { s with tape := s.tape.zeroFill s.len (growLen s.cfg s.len a), len := growLen s.cfg s.len a }

/-- The growth of an access to `a` (rules R53, R54): `if a >= len: Grow(a)`. -/
def State.touch (s : State) (a : Nat) : State := if s.len ≤ a then s.grow a else s

/-- The cell a program finds at `a`: `T[a]` where it exists, and the 0 that growth would give it where it does not
(rules R53, R58). The one read of a cell that statements use. -/
def State.cell (s : State) (a : Nat) : Cell := if a < s.len then s.tape.read a else 0

/-! ### Stops -/

/-- The outcome of a part of an instruction: a value and the state so far, or the stop it raised and the state at
that point. -/
inductive Res (α : Type) where
  | ok (a : α) (s : State)
  | stop (x : Status) (s : State)

/-- Run the next part of an instruction; after a stop no later line runs (rule R9). -/
def Res.bind {α β : Type} (r : Res α) (k : α → State → Res β) : Res β :=
  match r with
  | .ok a s => k a s
  | .stop x s => .stop x s

/-- `raise X(info)` (rules R112, R305): this machine's exception entry. Only the status register is written; `ip`
stays at the stopping instruction, and growth already made stays. The return is `hostRun` (rule R307). -/
def State.raise (s : State) (x : Status) : State := { s with status := x }

/-- The end of an instruction: its next state, or the state its stop leaves. -/
def Res.outcome (r : Res Unit) : Host.Outcome State Fault Refusal :=
  match r with
  | .ok _ s => .next s
  | .stop x s => .next (s.raise x)

/-! ### Access -/

/-- The address checks of rule R52, in their order. -/
def checkAddress (a : Int) (s : State) : Res Nat :=
  if a < 0 then .stop { reason := .negativeAddress, info := a } s
  else if (s.cfg.tapeCap : Int) ≤ a then .stop { reason := .capacityExceeded, info := a } s
  else .ok a.toNat s

/-- `MemRead(a, 1)` (rule R53). -/
def memRead (a : Int) (s : State) : Res Cell :=
  (checkAddress a s).bind fun n s => .ok ((s.touch n).tape.read n) (s.touch n)

/-- `T[a] <- v` for a cell that exists. -/
def State.store (s : State) (a : Nat) (v : Cell) : State := { s with tape := s.tape.write a v }

/-- `MemWrite(a, 1, v)` (rule R54). -/
def memWrite (a : Int) (v : Cell) (s : State) : Res Unit :=
  (checkAddress a s).bind fun n s => .ok () ((s.touch n).store n v)

/-- `FetchCell(a)` (rule R57): no growth, and Exhausted at or past the end. -/
def fetchCell (a : Nat) (s : State) : Res Cell :=
  if s.len ≤ a then .stop { reason := .exhausted, info := a } s else .ok (s.tape.read a) s

/-- The stop of a cell that is no instruction (rules R85, R89). -/
def Reject.status : Reject → Status
  | .notDecimal raw => { reason := .unknownOpcode, info := raw }
  | .unknownOpcode op => { reason := .unknownOpcode, info := op }
  | .illegalMode raw => { reason := .invalidMode, info := raw }

/-- The prologue of a step (rule R111): fetch at `ip`, decode, check the opcode and the used modes. Halt and the
input check are the first lines of HLT's and IN's own meanings. -/
def fetchInstr (s : State) : Res Instr :=
  (fetchCell s.ip s).bind fun raw s =>
    match decode raw with
    | .ok i => .ok i s
    | .error r => .stop (Reject.status r) s

/-! ### Registers -/

/-- `ip <- a`. -/
def State.setIp (s : State) (a : Nat) : State := { s with ip := a }

/-- `rb <- v`. -/
def State.setRb (s : State) (v : Cell) : State := { s with rb := v }

/-- What is left in the input queue after `PopFront` (rule R9). -/
def State.setInq (s : State) (q : List Cell) : State := { s with inq := q }

/-- `Append(outlog, v)` (rule R9). -/
def State.appendOut (s : State) (v : Cell) : State := { s with outlog := s.outlog ++ [v] }

/-- The 4-bit code of a reason (rule R28). -/
def StopReason.code : StopReason → BitVec 4
  | .notStarted => 0
  | .running => 1
  | .finished => 2
  | .exhausted => 3
  | .inputEmpty => 4
  | .unknownOpcode => 5
  | .negativeAddress => 6
  | .invalidMode => 7
  | .overflow => 8
  | .capacityExceeded => 9

/-- The reasons from which `run` starts the engine (rules R28, R29, R120). -/
def StopReason.startable : StopReason → Bool
  | .notStarted => true
  | .running => false
  | .finished => false
  | .exhausted => false
  | .inputEmpty => true
  | .unknownOpcode => false
  | .negativeAddress => false
  | .invalidMode => false
  | .overflow => false
  | .capacityExceeded => false

/-- The terminal reasons (rules R28, R308). -/
def StopReason.terminal : StopReason → Bool
  | .notStarted => false
  | .running => false
  | .finished => true
  | .exhausted => true
  | .inputEmpty => false
  | .unknownOpcode => true
  | .negativeAddress => true
  | .invalidMode => true
  | .overflow => true
  | .capacityExceeded => true

end Sys2Proof.Machine
end

