-- ==== Sys2Proof/Machine/Flags.lean ====
section
/-! DEFINITION. The core has no flags (rules R30, R31); in their place this file holds the ALU: exact results over
the integers and the range check that decides Overflow (rule R118). -/

namespace Sys2Proof.Machine

/-- `InI64(v)` (rule R7). -/
abbrev InI64 (v : Int) : Prop := -2 ^ 63 ≤ v ∧ v ≤ 2 ^ 63 - 1

/-- The range check of rule R118: a result in `i64` is stored unchanged; `none` is an overflow. -/
def narrow (v : Int) : Option Cell := if InI64 v then some (BitVec.ofInt 64 v) else none

/-- `a + b` (rule R118; opcodes 1 and 9). -/
def aluAdd (a b : Cell) : Option Cell := narrow (a.toInt + b.toInt)

/-- `a × b` (rule R118; opcode 2). -/
def aluMul (a b : Cell) : Option Cell := narrow (a.toInt * b.toInt)

/-- `a < b`, signed, as 1 or 0 (rule R118; opcode 7). -/
def aluLt (a b : Cell) : Option Cell := some (if a.toInt < b.toInt then 1 else 0)

/-- `a = b` as 1 or 0 (rule R118; opcode 8). -/
def aluEq (a b : Cell) : Option Cell := some (if a = b then 1 else 0)

/-- `a ≠ 0` (rule R118; opcode 5). -/
def aluNonzero (a : Cell) : Bool := a != 0

/-- `a = 0` (rule R118; opcode 6). -/
def aluZero (a : Cell) : Bool := a == 0

/-- `raise Overflow(op)` where the ALU's result is outside `i64` (rule R118). -/
def orOverflow (op : Nat) (r : Option Cell) (s : State) : Res Cell :=
  match r with
  | some v => .ok v s
  | none => .stop { reason := .overflow, info := op } s

end Sys2Proof.Machine
end

