-- ==== Sys2Proof/Machine/Operands.lean ====
section
/-! DEFINITION. The operand resolver (rules R114 to R117) and the instruction form shared by the four
instructions that write a result to the tape (rule R113). -/

namespace Sys2Proof.Machine

/-- The address a value parameter `p` reads its operand from (rule R115): none in immediate mode, the parameter
itself in position mode, and the exact sum with the relative base in relative mode (rule R117). -/
def valueAddress (m : Mode) (rb p : Cell) : Option Int :=
  match m with
  | .position => some p.toInt
  | .immediate => none
  | .relative => some (rb.toInt + p.toInt)

/-- The address a write parameter `p` names (rule R116): immediate mode acts as position mode. -/
def writeAddress (m : Mode) (rb p : Cell) : Int :=
  match m with
  | .position => p.toInt
  | .immediate => p.toInt
  | .relative => rb.toInt + p.toInt

/-- The parameter-cell read of rule R114. -/
def paramRead (k : Nat) (s : State) : Res Cell := memRead ((s.ip + k : Nat) : Int) s

/-- `ResolveValue(k)` (rule R115). -/
def resolveValue (m : Mode) (k : Nat) (s : State) : Res Cell :=
  (paramRead k s).bind fun p s =>
    match valueAddress m s.rb p with
    | none => .ok p s
    | some a => memRead a s

/-- `ResolveWrite(k)` (rule R116): the address is checked here, and grown only by the write. -/
def resolveWrite (m : Mode) (k : Nat) (s : State) : Res Nat :=
  (paramRead k s).bind fun p s => checkAddress (writeAddress m s.rb p) s

/-- The form of ADD, MUL, LT and EQ: two values, a destination, the ALU, the one write, then `ip` (rules R113,
R119, R150, R151, R180, R181). -/
def storeResult (op : Nat) (alu : Cell → Cell → Option Cell) (m1 m2 m3 : Mode) (s : State) : Res Unit :=
  (resolveValue m1 1 s).bind fun a s =>
  (resolveValue m2 2 s).bind fun b s =>
  (resolveWrite m3 3 s).bind fun d s =>
  (orOverflow op (alu a b) s).bind fun r s =>
  (memWrite d r s).bind fun _ s => .ok () (s.setIp (s.ip + 4))

/-- The form of JT and JF: two values, both resolved whether or not the jump is taken, then the test; a taken jump
to a negative target stops (rules R113, R170, R171, R302). -/
def jumpWhen (test : Cell → Bool) (m1 m2 : Mode) (s : State) : Res Unit :=
  (resolveValue m1 1 s).bind fun a s =>
  (resolveValue m2 2 s).bind fun t s =>
    if test a = true then
      if t.toInt < 0 then .stop { reason := .negativeAddress, info := t.toInt } s
      else .ok () (s.setIp t.toInt.toNat)
    else .ok () (s.setIp (s.ip + 3))

end Sys2Proof.Machine
end

