-- ==== Sys2Proof/Machine/Arithmetic.lean ====
section
/-! DEFINITION. ADD and MUL (spec/41_arithmetic.md). -/

namespace Sys2Proof.Machine

/-- ADD, rule R150. -/
def execAdd (m1 m2 m3 : Mode) (s : State) : Host.Outcome State Fault Refusal :=
  (storeResult 1 aluAdd m1 m2 m3 s).outcome

/-- MUL, rule R151. -/
def execMul (m1 m2 m3 : Mode) (s : State) : Host.Outcome State Fault Refusal :=
  (storeResult 2 aluMul m1 m2 m3 s).outcome

end Sys2Proof.Machine
end

