-- ==== Sys2Proof/Machine/Compare.lean ====
section
/-! DEFINITION. LT and EQ (spec/44_compare.md). Their ALU results always fit, so the opcode given for Overflow is
never recorded (rule R118). -/

namespace Sys2Proof.Machine

/-- LT, rule R180. -/
def execLt (m1 m2 m3 : Mode) (s : State) : Host.Outcome State Fault Refusal :=
  (storeResult 7 aluLt m1 m2 m3 s).outcome

/-- EQ, rule R181. -/
def execEq (m1 m2 m3 : Mode) (s : State) : Host.Outcome State Fault Refusal :=
  (storeResult 8 aluEq m1 m2 m3 s).outcome

end Sys2Proof.Machine
end

