-- ==== Sys2Proof/Machine/Halt.lean ====
section
/-! DEFINITION. HLT (spec/46_halt.md). -/

namespace Sys2Proof.Machine

/-- HLT, rule R200: `raise Finished(0)`, with `ip` left at the halt cell. -/
def execHlt (s : State) : Host.Outcome State Fault Refusal :=
  .next (s.raise { reason := .finished, info := 0 })

end Sys2Proof.Machine
end

