-- ==== Sys2Proof/Machine/InputOutput.lean ====
section
/-! DEFINITION. IN and OUT (spec/42_io.md). -/

namespace Sys2Proof.Machine

/-- IN, rule R160. The empty check comes before any access (rule R111), the pop after the destination is
resolved. -/
def execIn (m1 : Mode) (s : State) : Host.Outcome State Fault Refusal :=
  match s.inq with
  | [] => .next (s.raise { reason := .inputEmpty, info := 0 })
  | v :: rest =>
    ((resolveWrite m1 1 s).bind fun d s =>
     (memWrite d v (s.setInq rest)).bind fun _ s => .ok () (s.setIp (s.ip + 2))).outcome

/-- OUT, rule R161. -/
def execOut (m1 : Mode) (s : State) : Host.Outcome State Fault Refusal :=
  ((resolveValue m1 1 s).bind fun a s => .ok () ((s.appendOut a).setIp (s.ip + 2))).outcome

end Sys2Proof.Machine
end

