-- ==== Sys2Proof/Machine/Jump.lean ====
section
/-! DEFINITION. JT and JF (spec/43_jump.md). -/

namespace Sys2Proof.Machine

/-- JT, rule R170. -/
def execJt (m1 m2 : Mode) (s : State) : Host.Outcome State Fault Refusal :=
  (jumpWhen aluNonzero m1 m2 s).outcome

/-- JF, rule R171. -/
def execJf (m1 m2 : Mode) (s : State) : Host.Outcome State Fault Refusal :=
  (jumpWhen aluZero m1 m2 s).outcome

end Sys2Proof.Machine
end

