-- ==== Sys2Proof/Machine/RelativeBase.lean ====
section
/-! DEFINITION. ARB (spec/45_relbase.md). -/

namespace Sys2Proof.Machine

/-- ARB, rule R190: the operand is resolved with the old relative base. -/
def execArb (m1 : Mode) (s : State) : Host.Outcome State Fault Refusal :=
  ((resolveValue m1 1 s).bind fun a s =>
   (orOverflow 9 (aluAdd s.rb a) s).bind fun r s => .ok () ((s.setRb r).setIp (s.ip + 2))).outcome

end Sys2Proof.Machine
end

