-- ==== Sys2Proof/Machine/HostInterface.lean ====
section
/-! DEFINITION. The host interface of rule R124: load (reset), run, tape writes, discarding input, and the reads. -/

namespace Sys2Proof.Machine

/-- `Reset(program)` (rules R38, R350). The instance keeps its parameters, and the host its further actions. -/
def loaded (program : List Cell) (s : State) : State where
  tape := Memory.ofCells 0 program
  len := program.length
  ip := 0
  rb := 0
  status := { reason := .notStarted, info := 0 }
  inq := []
  outlog := []
  cfg := s.cfg
  pending := s.pending

/-- reset / load(program): a program longer than `TAPE_CAP` cannot be loaded and is refused (rule R350). -/
def hostLoad (program : List Cell) (s : State) : Host.Outcome State Fault Refusal :=
  if program.length ≤ s.cfg.tapeCap then .next (loaded program s)
  else .refused (.programTooLong program.length)

/-- `run(batch)` up to its loop (rules R120, R121): from NotStarted or InputEmpty the batch joins the queue and the
engine runs; on any other reason nothing is written. This is also the return from an InputEmpty stop (rule R307). -/
def hostRun (batch : List Cell) (s : State) : State :=
  if s.status.reason.startable = true then
    { s with inq := s.inq ++ batch, status := { s.status with reason := .running } }
  else s

/-- write `T[a]` (rule R124): only a cell that exists. -/
def hostWrite (a : Nat) (v : Cell) (s : State) : Host.Outcome State Fault Refusal :=
  if a < s.len then .next (s.store a v) else .fault (.hostWriteOutside a)

/-- What one host action does. -/
def performHost (act : HostAction) (s : State) : Host.Outcome State Fault Refusal :=
  match act with
  | .load program => hostLoad program s
  | .run batch => .next (hostRun batch s)
  | .writeCell a v => hostWrite a v s
  | .discardInput => .next (s.setInq [])

/-- A step while the engine does not run: the host's next action, or nothing at all when the host has none
(rules R124, R309; log 5). -/
def hostStep (s : State) : Host.Outcome State Fault Refusal :=
  match s.pending with
  | [] => .next s
  | act :: rest => performHost act { s with pending := rest }

/-- What the host reads: `v` between runs, and nothing while the engine runs (rules R66, R124; log 15). -/
def betweenRuns {α : Type} (s : State) (v : α) : Option α := if s.status.reason = .running then none else some v

/-- The host's read of `ip`, `rb`, `status` and `outlog`: the RunState at a stop (rules R37, R124). -/
def State.runState (s : State) : Option RunState :=
  betweenRuns s { ip := s.ip, rb := s.rb, outlog := s.outlog, status := s.status }

/-- The host's read of `T[a]`: between runs, only a cell that exists, and no growth (rules R66, R124). -/
def hostRead (a : Nat) (s : State) : Option Cell := if a < s.len then betweenRuns s (s.tape.read a) else none

/-- The host's read of `len` (rule R124). -/
def hostReadLen (s : State) : Option Nat := betweenRuns s s.len

/-- The host's read of the leftover input, which `discardInput` then empties (rule R124). -/
def hostReadInput (s : State) : Option (List Cell) := betweenRuns s s.inq

/-- Lay cells out from `a` on. -/
def State.storeCells (s : State) (a : Nat) : List Cell → State
  | [] => s
  | v :: vs => State.storeCells (s.store a v) (a + 1) vs

/-- The state in which the very next step fetches the instruction whose bits are `w`: its four cells at `ip`, a
tape long enough to hold them, and the engine running, as after a load and a `run` (log 6). -/
def placeWord (s : State) (nbits w : Nat) : State :=
  let cells := [0, 1, 2, 3].map (tableCell (w % 2 ^ nbits))
  let s := { s with len := max s.len (s.ip + 4), status := { s.status with reason := .running } }
  s.storeCells s.ip cells

end Sys2Proof.Machine
end

