-- ==== Sys2Proof/Machine/Step.lean ====
section
/-! DEFINITION. One step of the machine: an instruction while the engine runs (rules R110, R111), a host action
otherwise (rule R124). -/

namespace Sys2Proof.Machine

/-- `Step()` of rule R111 while `status.reason` = Running; otherwise the host's turn. -/
def step (s : State) : Host.Outcome State Fault Refusal :=
  if s.status.reason = .running then
    match fetchInstr s with
    | .ok i t => exec i t
    | .stop x t => .next (t.raise x)
  else hostStep s

/-- The state whose next step runs the instruction with bits `w` (log 6). -/
def State.withFetchWord (s : State) (nbits w : Nat) : State := placeWord s nbits w

end Sys2Proof.Machine
end

