-- ==== Sys2Proof/Safety.lean ====
section
/-! DEFINITION. The terms claims use: the invariant of a state, the accesses an instruction makes and the first one
that stops it, what a step may change, and what a safe run is. -/

namespace Sys2Proof.Machine

/-! ### The invariant -/

/-- The ranges the spec gives the state (rules R5, R20, R22, R27, R33), the tape's canonical form, and the `info`
of 0 that every start and every resumption finds (rules R112, R301, R350: only a terminal stop records another). -/
abbrev State.Inv (s : State) : Prop :=
  s.cfg.wf ∧ Memory.wf s.tape ∧ (∀ e ∈ s.tape, e.1 < s.len) ∧ s.len ≤ s.cfg.tapeCap ∧ s.ip < 2 ^ 63 ∧
    (-2 ^ 64 ≤ s.status.info ∧ s.status.info < 2 ^ 64) ∧ (s.status.reason.terminal = false → s.status.info = 0)

/-! ### The accesses of an instruction -/

/-- One tape access of the operand resolver: the exact address, and whether the access grows the tape (a read
does, the check of a write target does not; rules R53, R116). -/
structure Access where
  addr : Int
  grows : Bool
deriving DecidableEq, Repr

/-- The stop of an address that fails the checks of rule R52. -/
def addressStop (c : Config) (a : Int) : Option Status :=
  if a < 0 then some { reason := .negativeAddress, info := a }
  else if (c.tapeCap : Int) ≤ a then some { reason := .capacityExceeded, info := a }
  else none

/-- The tape length after an access to `a` (rules R53, R54, R55). -/
def touchLen (c : Config) (len a : Nat) : Nat := if len ≤ a then growLen c len a else len

/-- Make accesses in order from tape length `len`: the first stop, if one is reached, and the tape length then
(rules R112, R113). -/
def walk (c : Config) (len : Nat) : List Access → Option Status × Nat
  | [] => (none, len)
  | x :: xs =>
    match addressStop c x.addr with
    | some st => (some st, len)
    | none => walk c (if x.grows = true then touchLen c len x.addr.toNat else len) xs

/-- The content of parameter cell `k` (rules R80, R114). -/
def State.param (s : State) (k : Nat) : Cell := s.cell (s.ip + k)

/-- The accesses of `ResolveValue(k)` (rules R114, R115). -/
def valueAccesses (m : Mode) (k : Nat) (s : State) : List Access :=
  { addr := ((s.ip + k : Nat) : Int), grows := true } ::
    match valueAddress m s.rb (s.param k) with
    | none => []
    | some a => [{ addr := a, grows := true }]

/-- The accesses of `ResolveWrite(k)` (rules R114, R116). -/
def writeAccesses (m : Mode) (k : Nat) (s : State) : List Access :=
  [{ addr := ((s.ip + k : Nat) : Int), grows := true },
   { addr := writeAddress m s.rb (s.param k), grows := false }]

/-- The value of parameter `k` (rule R115). -/
def State.operand (s : State) (m : Mode) (k : Nat) : Cell :=
  match valueAddress m s.rb (s.param k) with
  | none => s.param k
  | some a => s.cell a.toNat

/-- The cell parameter `k` names as a write target (rule R116). -/
def State.target (s : State) (m : Mode) (k : Nat) : Nat := (writeAddress m s.rb (s.param k)).toNat

/-! ### What changes -/

/-- `t` is `s` after growth to length `len` and nothing else: every cell a program can read is as before. -/
def Grew (s t : State) (len : Nat) : Prop :=
  t = { s with tape := t.tape, len := len } ∧ ∀ a, t.cell a = s.cell a

/-- `t` is `s` stopped with `x` after growth to length `len`, and nothing else (rules R112, R306). -/
def Stopped (s t : State) (x : Status) (len : Nat) : Prop :=
  t = { s with tape := t.tape, len := len, status := x } ∧ ∀ a, t.cell a = s.cell a

/-- The accesses of ADD, MUL, LT and EQ before their write, in the order of rule R113. -/
def storeAccesses (m1 m2 m3 : Mode) (s : State) : List Access :=
  valueAccesses m1 1 s ++ valueAccesses m2 2 s ++ writeAccesses m3 3 s

/-- The accesses of JT and JF, in the order of rule R113. -/
def jumpAccesses (m1 m2 : Mode) (s : State) : List Access := valueAccesses m1 1 s ++ valueAccesses m2 2 s

/-- Every access passes the address checks of rule R52. -/
def Passes (s : State) (xs : List Access) : Prop := ∀ x ∈ xs, 0 ≤ x.addr ∧ x.addr < (s.cfg.tapeCap : Int)

/-- The tape length once the accesses are made, as far as they go (rules R55, R113). -/
def State.lenAfter (s : State) (xs : List Access) : Nat := (walk s.cfg s.len xs).2

/-- `i` run in `s` stops with `x`, having grown the tape to `len` and done nothing else. -/
def StopsWith (i : Instr) (s : State) (x : Status) (len : Nat) : Prop :=
  ∃ t, exec i s = .next t ∧ Stopped s t x len

/-- Where one of the accesses `xs` fails its check, `i` run in `s` stops at the first that does (rules R113, R304). -/
def StopsAtFirstBadAccess (i : Instr) (s : State) (xs : List Access) : Prop :=
  ∀ x, (walk s.cfg s.len xs).1 = some x → StopsWith i s x (s.lenAfter xs)

/-- `i` run in `s` completes: `ip` moves on by 4, cell `d` holds `r`, the tape grows as the accesses `xs` and the
write to `d` say, every other cell reads as before and every other part of the state is unchanged. -/
def StoresAndAdvances (i : Instr) (s : State) (xs : List Access) (d : Nat) (r : Int) : Prop :=
  ∃ t, exec i s = .next t ∧
    t = { s with tape := t.tape, len := touchLen s.cfg (s.lenAfter xs) d, ip := s.ip + 4 } ∧
    (t.cell d).toInt = r ∧ ∀ a, a ≠ d → t.cell a = s.cell a

/-- `i` run in `s` completes with `ip` at `a`; the tape grows as the accesses `xs` say, every cell reads as before
and every other part of the state is unchanged. -/
def Jumps (i : Instr) (s : State) (xs : List Access) (a : Nat) : Prop :=
  ∃ t, exec i s = .next t ∧ t = { s with tape := t.tape, len := s.lenAfter xs, ip := a } ∧
    ∀ b, t.cell b = s.cell b

/-- The host action is not a load. -/
def HostAction.isLoad : HostAction → Bool
  | .load _ => true
  | .run _ => false
  | .writeCell _ _ => false
  | .discardInput => false

/-- The reasons that report a fault of the program: every terminal stop but Finished and Exhausted (rule R301). -/
def StopReason.faulty (r : StopReason) : Bool :=
  r == .unknownOpcode || r == .negativeAddress || r == .invalidMode || r == .overflow || r == .capacityExceeded

/-! ### Runs -/

/-- The machine of `Sys2Proof.core` run for `n` steps. -/
def runFor (n : Nat) (s : State) : Host.Outcome State Fault Refusal := Host.Core.run Sys2Proof.core n s


/-- A state of a safe run: inside the ranges of the spec, and not stopped by a fault of the program. -/
def State.Safe (s : State) : Prop := s.Inv ∧ s.status.reason.faulty = false

/-- A safe run of `n` steps: every step answers a state, and every state is safe. -/
def SafeRun : Nat → State → Prop
  | 0, s => s.Safe
  | n + 1, s => s.Safe ∧ ∃ t, step s = .next t ∧ SafeRun n t

end Sys2Proof.Machine
end

