-- ==== Sys2Proof/Certificates/Slice0/Obligations.lean ====
section
/-! DEFINITION. The statements for the provers, in the terms of Safety.lean. Each docstring names the rule it
formalises. A statement about growth holds for every admissible `GrowLen` and every `TAPE_CAP`, since both are data of
the state it quantifies over. -/

open Sys2Proof Sys2Proof.Machine

/-! ### The instructions -/

/-- R150, ADD: the encoding; the first bad access stops it; a sum outside `i64` stops it with Overflow(1); otherwise
the exact sum goes to `dst`, `ip` moves on by 4, and nothing else changes but growth. -/
def Obligations.AddStoresTheExactSum : Prop :=
  ∀ (m1 m2 m3 : Mode) (s : State),
    (encode (.add m1 m2 m3)).toInt = 1 + 100 * m1.digit + 1000 * m2.digit + 10000 * m3.digit ∧
    StopsAtFirstBadAccess (.add m1 m2 m3) s (storeAccesses m1 m2 m3 s) ∧
    (Passes s (storeAccesses m1 m2 m3 s) →
      ¬ InI64 ((s.operand m1 1).toInt + (s.operand m2 2).toInt) →
      StopsWith (.add m1 m2 m3) s { reason := .overflow, info := 1 } (s.lenAfter (storeAccesses m1 m2 m3 s))) ∧
    (Passes s (storeAccesses m1 m2 m3 s) →
      InI64 ((s.operand m1 1).toInt + (s.operand m2 2).toInt) →
      StoresAndAdvances (.add m1 m2 m3) s (storeAccesses m1 m2 m3 s) (s.target m3 3)
        ((s.operand m1 1).toInt + (s.operand m2 2).toInt))

/-- R151, MUL: as ADD, with the exact product and Overflow(2). -/
def Obligations.MulStoresTheExactProduct : Prop :=
  ∀ (m1 m2 m3 : Mode) (s : State),
    (encode (.mul m1 m2 m3)).toInt = 2 + 100 * m1.digit + 1000 * m2.digit + 10000 * m3.digit ∧
    StopsAtFirstBadAccess (.mul m1 m2 m3) s (storeAccesses m1 m2 m3 s) ∧
    (Passes s (storeAccesses m1 m2 m3 s) →
      ¬ InI64 ((s.operand m1 1).toInt * (s.operand m2 2).toInt) →
      StopsWith (.mul m1 m2 m3) s { reason := .overflow, info := 2 } (s.lenAfter (storeAccesses m1 m2 m3 s))) ∧
    (Passes s (storeAccesses m1 m2 m3 s) →
      InI64 ((s.operand m1 1).toInt * (s.operand m2 2).toInt) →
      StoresAndAdvances (.mul m1 m2 m3) s (storeAccesses m1 m2 m3 s) (s.target m3 3)
        ((s.operand m1 1).toInt * (s.operand m2 2).toInt))

/-- R180, LT: the encoding; the first bad access stops it; otherwise 1 or 0 goes to `dst` by the signed comparison. -/
def Obligations.LtStoresTheSignedComparison : Prop :=
  ∀ (m1 m2 m3 : Mode) (s : State),
    (encode (.lt m1 m2 m3)).toInt = 7 + 100 * m1.digit + 1000 * m2.digit + 10000 * m3.digit ∧
    StopsAtFirstBadAccess (.lt m1 m2 m3) s (storeAccesses m1 m2 m3 s) ∧
    (Passes s (storeAccesses m1 m2 m3 s) →
      StoresAndAdvances (.lt m1 m2 m3) s (storeAccesses m1 m2 m3 s) (s.target m3 3)
        (if (s.operand m1 1).toInt < (s.operand m2 2).toInt then 1 else 0))

/-- R181, EQ: as LT, by equality of the whole values. -/
def Obligations.EqStoresTheEqualityTest : Prop :=
  ∀ (m1 m2 m3 : Mode) (s : State),
    (encode (.eq m1 m2 m3)).toInt = 8 + 100 * m1.digit + 1000 * m2.digit + 10000 * m3.digit ∧
    StopsAtFirstBadAccess (.eq m1 m2 m3) s (storeAccesses m1 m2 m3 s) ∧
    (Passes s (storeAccesses m1 m2 m3 s) →
      StoresAndAdvances (.eq m1 m2 m3) s (storeAccesses m1 m2 m3 s) (s.target m3 3)
        (if (s.operand m1 1).toInt = (s.operand m2 2).toInt then 1 else 0))

/-- R160, IN: the encoding, with its unused digits; an empty queue stops it before anything else and with nothing
else changed; a bad access stops it with the queue unpopped; otherwise the front of the queue is popped and goes to
`dst`, `ip` moves on by 2, and nothing else changes but growth. -/
def Obligations.InTakesTheFrontOfTheQueue : Prop :=
  ∀ (m1 : Mode) (x2 x3 : Nat) (s : State),
    (x2 ≤ 9 → x3 ≤ 9 → (encode (.inp m1 x2 x3)).toInt = 3 + 100 * m1.digit + 1000 * x2 + 10000 * x3) ∧
    (s.inq = [] →
      exec (.inp m1 x2 x3) s = .next { s with status := { reason := .inputEmpty, info := 0 } }) ∧
    ∀ (v : Cell) (rest : List Cell), s.inq = v :: rest →
      StopsAtFirstBadAccess (.inp m1 x2 x3) s (writeAccesses m1 1 s) ∧
      (Passes s (writeAccesses m1 1 s) →
        ∃ t, exec (.inp m1 x2 x3) s = .next t ∧
          t = { s with
                  tape := t.tape
                  len := touchLen s.cfg (s.lenAfter (writeAccesses m1 1 s)) (s.target m1 1)
                  inq := rest
                  ip := s.ip + 2 } ∧
          t.cell (s.target m1 1) = v ∧ ∀ a, a ≠ s.target m1 1 → t.cell a = s.cell a)

/-- R161, OUT: the encoding, with its unused digits; a bad access stops it with nothing appended; otherwise the
operand is appended, `ip` moves on by 2, and nothing else changes but growth. -/
def Obligations.OutAppendsItsOperand : Prop :=
  ∀ (m1 : Mode) (x2 x3 : Nat) (s : State),
    (x2 ≤ 9 → x3 ≤ 9 → (encode (.out m1 x2 x3)).toInt = 4 + 100 * m1.digit + 1000 * x2 + 10000 * x3) ∧
    StopsAtFirstBadAccess (.out m1 x2 x3) s (valueAccesses m1 1 s) ∧
    (Passes s (valueAccesses m1 1 s) →
      ∃ t, exec (.out m1 x2 x3) s = .next t ∧
        t = { s with
                tape := t.tape
                len := s.lenAfter (valueAccesses m1 1 s)
                outlog := s.outlog ++ [s.operand m1 1]
                ip := s.ip + 2 } ∧
        ∀ a, t.cell a = s.cell a)

/-- R170, JT: the encoding, with its unused digit; a bad access stops it, taken or not; on a nonzero operand a
negative target stops it with NegativeAddress(target) and any other target becomes `ip`; on a zero operand `ip` moves
on by 3, whatever the target's sign. -/
def Obligations.JtJumpsWhenNonzero : Prop :=
  ∀ (m1 m2 : Mode) (x3 : Nat) (s : State),
    (x3 ≤ 9 → (encode (.jt m1 m2 x3)).toInt = 5 + 100 * m1.digit + 1000 * m2.digit + 10000 * x3) ∧
    StopsAtFirstBadAccess (.jt m1 m2 x3) s (jumpAccesses m1 m2 s) ∧
    (Passes s (jumpAccesses m1 m2 s) →
      ((s.operand m1 1).toInt ≠ 0 → (s.operand m2 2).toInt < 0 →
        StopsWith (.jt m1 m2 x3) s { reason := .negativeAddress, info := (s.operand m2 2).toInt }
          (s.lenAfter (jumpAccesses m1 m2 s))) ∧
      ((s.operand m1 1).toInt ≠ 0 → 0 ≤ (s.operand m2 2).toInt →
        Jumps (.jt m1 m2 x3) s (jumpAccesses m1 m2 s) (s.operand m2 2).toInt.toNat) ∧
      ((s.operand m1 1).toInt = 0 → Jumps (.jt m1 m2 x3) s (jumpAccesses m1 m2 s) (s.ip + 3)))

/-- R171, JF: as JT, taken on a zero operand. -/
def Obligations.JfJumpsWhenZero : Prop :=
  ∀ (m1 m2 : Mode) (x3 : Nat) (s : State),
    (x3 ≤ 9 → (encode (.jf m1 m2 x3)).toInt = 6 + 100 * m1.digit + 1000 * m2.digit + 10000 * x3) ∧
    StopsAtFirstBadAccess (.jf m1 m2 x3) s (jumpAccesses m1 m2 s) ∧
    (Passes s (jumpAccesses m1 m2 s) →
      ((s.operand m1 1).toInt = 0 → (s.operand m2 2).toInt < 0 →
        StopsWith (.jf m1 m2 x3) s { reason := .negativeAddress, info := (s.operand m2 2).toInt }
          (s.lenAfter (jumpAccesses m1 m2 s))) ∧
      ((s.operand m1 1).toInt = 0 → 0 ≤ (s.operand m2 2).toInt →
        Jumps (.jf m1 m2 x3) s (jumpAccesses m1 m2 s) (s.operand m2 2).toInt.toNat) ∧
      ((s.operand m1 1).toInt ≠ 0 → Jumps (.jf m1 m2 x3) s (jumpAccesses m1 m2 s) (s.ip + 3)))

/-- R190, ARB: the encoding, with its unused digits; a bad access stops it; a sum outside `i64` stops it with
Overflow(9) and `rb` unchanged; otherwise `rb` is the exact sum (the operand being found with the old `rb`), `ip` moves
on by 2, and nothing else changes but growth. -/
def Obligations.ArbAddsToTheRelativeBase : Prop :=
  ∀ (m1 : Mode) (x2 x3 : Nat) (s : State),
    (x2 ≤ 9 → x3 ≤ 9 → (encode (.arb m1 x2 x3)).toInt = 9 + 100 * m1.digit + 1000 * x2 + 10000 * x3) ∧
    StopsAtFirstBadAccess (.arb m1 x2 x3) s (valueAccesses m1 1 s) ∧
    (Passes s (valueAccesses m1 1 s) →
      ¬ InI64 (s.rb.toInt + (s.operand m1 1).toInt) →
      StopsWith (.arb m1 x2 x3) s { reason := .overflow, info := 9 } (s.lenAfter (valueAccesses m1 1 s))) ∧
    (Passes s (valueAccesses m1 1 s) →
      InI64 (s.rb.toInt + (s.operand m1 1).toInt) →
      ∃ t, exec (.arb m1 x2 x3) s = .next t ∧
        t = { s with
                tape := t.tape
                len := s.lenAfter (valueAccesses m1 1 s)
                rb := t.rb
                ip := s.ip + 2 } ∧
        t.rb.toInt = s.rb.toInt + (s.operand m1 1).toInt ∧ ∀ a, t.cell a = s.cell a)

/-- R200, HLT: the encoding with any unused digits; Finished(0) with nothing else changed, `ip` at the halt cell and
no growth; every cell 0 to 99999 that ends in 99 halts, and a later `run` does nothing. -/
def Obligations.HltFinishes : Prop :=
  ∀ (s : State),
    (∀ x1 x2 x3 : Nat,
      (x1 ≤ 9 → x2 ≤ 9 → x3 ≤ 9 →
        (encode (.hlt x1 x2 x3)).toInt = 99 + 100 * x1 + 1000 * x2 + 10000 * x3) ∧
      exec (.hlt x1 x2 x3) s = .next { s with status := { reason := .finished, info := 0 } }) ∧
    (s.status.reason = .running → s.ip < s.len → 0 ≤ (s.cell s.ip).toInt → (s.cell s.ip).toInt ≤ 99999 →
      (s.cell s.ip).toInt % 100 = 99 →
      step s = .next { s with status := { reason := .finished, info := 0 } }) ∧
    ∀ batch, hostRun batch { s with status := { reason := .finished, info := 0 } } =
      { s with status := { reason := .finished, info := 0 } }

/-! ### What instructions may change -/

/-- R6, R24, R33, R34, R35, R86: `rb` is written by ARB alone, `inq` popped by IN alone and by one element, `outlog`
appended to by OUT alone and by one element; cells change only under ADD, MUL, IN, LT and EQ; the tape never shrinks;
the parameters and the host's actions are never touched. -/
def Obligations.OnlyTheNamedInstructionWrites : Prop :=
  ∀ (i : Instr) (s t : State), exec i s = .next t →
    (t.rb ≠ s.rb → i.opcode = 9) ∧
    (t.inq ≠ s.inq → i.opcode = 3 ∧ ∃ v, s.inq = v :: t.inq) ∧
    (t.outlog ≠ s.outlog → i.opcode = 4 ∧ ∃ v, t.outlog = s.outlog ++ [v]) ∧
    ((∃ a, t.cell a ≠ s.cell a) → i.opcode ∈ [1, 2, 3, 7, 8]) ∧
    s.len ≤ t.len ∧ t.cfg = s.cfg ∧ t.pending = s.pending

/-- R306 with R112 and R23: an instruction, and a step, that stops a running core leaves `ip`, `rb`, both queues and
every cell as they were; only the status register and the tape length differ, and the length only upward. (R306 is the
spec's own inference from R112 and R113.) -/
def Obligations.EveryStopIsPrecise : Prop :=
  ∀ s t : State, s.status.reason = .running → t.status.reason ≠ .running →
    (∀ i : Instr, exec i s = .next t → Stopped s t t.status t.len ∧ s.len ≤ t.len) ∧
    (step s = .next t → Stopped s t t.status t.len ∧ s.len ≤ t.len)

/-- R119: an instruction that completes moves `ip` past its own cells, or is a jump that was taken; it leaves the
status register alone. -/
def Obligations.CompletionAdvancesPastTheOperands : Prop :=
  ∀ (i : Instr) (s t : State), s.status.reason = .running → exec i s = .next t → t.status.reason = .running →
    t.status = s.status ∧
    (t.ip = s.ip + i.nparam + 1 ∨
      ∃ m1 m2 x3, ((i = .jt m1 m2 x3 ∧ (s.operand m1 1).toInt ≠ 0) ∨ (i = .jf m1 m2 x3 ∧ (s.operand m1 1).toInt = 0)) ∧
        (t.ip : Int) = (s.operand m2 2).toInt)

/-- R305, R110: a running core always answers a next state: no instruction and no cell ends in a fault or a refusal. -/
def Obligations.ARunningCoreAlwaysAnswersAState : Prop :=
  ∀ s : State, s.status.reason = .running →
    ∃ t, step s = .next t ∧ t.cfg = s.cfg ∧ t.pending = s.pending ∧ t.status.reason ≠ .notStarted

/-! ### The tape -/

/-- R53: the four cases of `MemRead(a, 1)`. -/
def Obligations.MemReadRule : Prop :=
  ∀ (a : Int) (s : State),
    (a < 0 → memRead a s = .stop { reason := .negativeAddress, info := a } s) ∧
    (0 ≤ a → (s.cfg.tapeCap : Int) ≤ a → memRead a s = .stop { reason := .capacityExceeded, info := a } s) ∧
    (0 ≤ a → a < (s.cfg.tapeCap : Int) → (s.len : Int) ≤ a → memRead a s = .ok 0 (s.grow a.toNat)) ∧
    (0 ≤ a → a < (s.cfg.tapeCap : Int) → a < (s.len : Int) → memRead a s = .ok (s.cell a.toNat) s)

/-- R54: the cases of `MemWrite(a, 1, v)`; growth comes first, then the one cell is written. -/
def Obligations.MemWriteRule : Prop :=
  ∀ (a : Int) (v : Cell) (s : State),
    (a < 0 → memWrite a v s = .stop { reason := .negativeAddress, info := a } s) ∧
    (0 ≤ a → (s.cfg.tapeCap : Int) ≤ a → memWrite a v s = .stop { reason := .capacityExceeded, info := a } s) ∧
    (0 ≤ a → a < (s.cfg.tapeCap : Int) →
      ∃ t, memWrite a v s = .ok () t ∧
        t = { s with tape := t.tape, len := if (s.len : Int) ≤ a then growLen s.cfg s.len a.toNat else s.len } ∧
        ∀ b, t.cell b = if b = a.toNat then v else s.cell b)

/-- R55: `GrowLen` is within its bounds, and `Grow(a)` sets the new length, keeps every old cell and zeroes every
new one. -/
def Obligations.GrowthKeepsOldCellsAndZeroesNewOnes : Prop :=
  ∀ (s : State) (a : Nat), s.len ≤ a → a < s.cfg.tapeCap →
    growLen s.cfg s.len a ≤ s.cfg.tapeCap ∧ min s.cfg.tapeCap (a + 3) ≤ growLen s.cfg s.len a ∧
    s.grow a = { s with tape := (s.grow a).tape, len := growLen s.cfg s.len a } ∧
    s.len ≤ (s.grow a).len ∧ a < (s.grow a).len ∧
    (∀ b, b < s.len → (s.grow a).tape.read b = s.tape.read b) ∧
    (∀ b, s.len ≤ b → b < (s.grow a).len → (s.grow a).tape.read b = 0)

/-- The model's own choice of data for `GrowLen` (log 2) loses nothing: for any `TAPE_CAP` and any function meeting
R55, and any finite list of growths, some configuration grows the tape exactly so. -/
def Obligations.EveryAdmissibleGrowthIsSomeConfig : Prop :=
  ∀ (cap : Nat) (g : Nat → Nat → Nat),
    (∀ len a, len ≤ a → a < cap → min cap (a + 3) ≤ g len a ∧ g len a ≤ cap) →
    ∀ asked : List (Nat × Nat), (∀ q ∈ asked, q.1 ≤ q.2 ∧ q.2 < cap) →
      ∃ c : Config, c.tapeCap = cap ∧ ∀ q ∈ asked, growLen c q.1 q.2 = g q.1 q.2

/-- R57: `FetchCell` stops with Exhausted at or past the end and never grows; a step of a running core stops so,
with nothing else changed; a parameter cell past the end below `TAPE_CAP` reads as 0 and grows the tape instead. -/
def Obligations.FetchPastTheEndIsExhausted : Prop :=
  ∀ s : State,
    (∀ a : Nat, (s.len ≤ a → fetchCell a s = .stop { reason := .exhausted, info := a } s) ∧
      (a < s.len → fetchCell a s = .ok (s.tape.read a) s)) ∧
    (s.status.reason = .running → s.len ≤ s.ip →
      step s = .next { s with status := { reason := .exhausted, info := s.ip } }) ∧
    ∀ k : Nat, s.len ≤ s.ip + k → s.ip + k < s.cfg.tapeCap →
      ∃ t, paramRead k s = .ok 0 t ∧ s.ip + k < t.len ∧ Grew s t t.len

/-- R69, R64: a cell just written is what the very next fetch and the very next read of it find. -/
def Obligations.AWriteIsSeenByTheNextFetchAndRead : Prop :=
  ∀ (a : Int) (v : Cell) (s t : State), memWrite a v s = .ok () t →
    fetchCell a.toNat t = .ok v t ∧ memRead a t = .ok v t

/-! ### The resolver and the ALU -/

/-- R115: `ResolveValue(k)` in the three modes: the literal, the cell at the operand, the cell at `rb` plus the
operand; the first bad access stops it; either way the tape only grows. -/
def Obligations.ResolveValueRule : Prop :=
  ∀ (m : Mode) (k : Nat) (s : State),
    (∀ x, (walk s.cfg s.len (valueAccesses m k s)).1 = some x →
      ∃ t, resolveValue m k s = .stop x t ∧ Grew s t (s.lenAfter (valueAccesses m k s))) ∧
    (Passes s (valueAccesses m k s) →
      ∃ v t, resolveValue m k s = .ok v t ∧ Grew s t (s.lenAfter (valueAccesses m k s)) ∧
        (m = .immediate → v = s.param k) ∧
        (m = .position → v = s.cell (s.param k).toInt.toNat) ∧
        (m = .relative → v = s.cell (s.rb.toInt + (s.param k).toInt).toNat))

/-- R116: `ResolveWrite(k)`: mode 1 gives what mode 0 gives; the address is checked, not grown; the write to the
address it gives cannot stop. -/
def Obligations.ResolveWriteRule : Prop :=
  ∀ (m : Mode) (k : Nat) (s : State),
    resolveWrite .immediate k s = resolveWrite .position k s ∧
    (∀ x, (walk s.cfg s.len (writeAccesses m k s)).1 = some x →
      ∃ t, resolveWrite m k s = .stop x t ∧ Grew s t (s.lenAfter (writeAccesses m k s))) ∧
    (Passes s (writeAccesses m k s) →
      ∃ d t, resolveWrite m k s = .ok d t ∧ Grew s t (touchLen s.cfg s.len (s.ip + k)) ∧
        (m = .position → (d : Int) = (s.param k).toInt) ∧
        (m = .relative → (d : Int) = s.rb.toInt + (s.param k).toInt) ∧
        ∀ v, ∃ u, memWrite d v t = .ok () u)

/-- R117: a relative address is the exact sum and lies in [−2^64, 2^64 − 2]; below 0 it stops with NegativeAddress,
at or above `TAPE_CAP` with CapacityExceeded, each with the exact sum; a position-mode address is the cell itself. -/
def Obligations.RelativeAddressesAreExact : Prop :=
  ∀ (k : Nat) (s : State), s.ip + k < s.cfg.tapeCap →
    (-2 ^ 64 ≤ s.rb.toInt + (s.param k).toInt ∧ s.rb.toInt + (s.param k).toInt ≤ 2 ^ 64 - 2) ∧
    valueAddress .relative s.rb (s.param k) = some (s.rb.toInt + (s.param k).toInt) ∧
    writeAddress .relative s.rb (s.param k) = s.rb.toInt + (s.param k).toInt ∧
    valueAddress .position s.rb (s.param k) = some (s.param k).toInt ∧
    writeAddress .position s.rb (s.param k) = (s.param k).toInt ∧
    (s.rb.toInt + (s.param k).toInt < 0 → ∃ t,
      resolveValue .relative k s = .stop { reason := .negativeAddress, info := s.rb.toInt + (s.param k).toInt } t ∧
      resolveWrite .relative k s = .stop { reason := .negativeAddress, info := s.rb.toInt + (s.param k).toInt } t) ∧
    ((s.cfg.tapeCap : Int) ≤ s.rb.toInt + (s.param k).toInt → ∃ t,
      resolveValue .relative k s = .stop { reason := .capacityExceeded, info := s.rb.toInt + (s.param k).toInt } t ∧
      resolveWrite .relative k s = .stop { reason := .capacityExceeded, info := s.rb.toInt + (s.param k).toInt } t)

/-- The ALU of R118 (which opcode gives which overflow is in the statements of ADD, MUL and ARB): exact results; outside `i64` an overflow with the opcode as info; comparisons signed; tests against 0. -/
def Obligations.TheAluIsExactOrOverflows : Prop :=
  ∀ (a b : Cell) (op : Nat) (s : State),
    (InI64 (a.toInt + b.toInt) → ∃ r, aluAdd a b = some r ∧ r.toInt = a.toInt + b.toInt) ∧
    (¬ InI64 (a.toInt + b.toInt) → aluAdd a b = none) ∧
    (InI64 (a.toInt * b.toInt) → ∃ r, aluMul a b = some r ∧ r.toInt = a.toInt * b.toInt) ∧
    (¬ InI64 (a.toInt * b.toInt) → aluMul a b = none) ∧
    (∃ r, aluLt a b = some r ∧ r.toInt = if a.toInt < b.toInt then 1 else 0) ∧
    (∃ r, aluEq a b = some r ∧ r.toInt = if a.toInt = b.toInt then 1 else 0) ∧
    (aluNonzero a = true ↔ a.toInt ≠ 0) ∧ (aluZero a = true ↔ a.toInt = 0) ∧
    orOverflow op none s = .stop { reason := .overflow, info := op } s

/-! ### Encoding -/

/-- R81, R83: decoding the encoding of any well-formed instruction gives it back, with every mode and every unused
digit. -/
def Obligations.DecodeOfEncodeIsTheInstruction : Prop :=
  ∀ i : Instr, i.wellFormed = true → decode (encode i) = .ok i

/-- R81, R83: a cell that decodes is the encoding of the well-formed instruction it decodes to: no digit is dropped
and no two instructions share a cell. -/
def Obligations.EncodeOfDecodeIsTheCell : Prop :=
  ∀ (c : Cell) (i : Instr), decode c = .ok i → i.wellFormed = true ∧ encode i = c

/-- R83: `Decode` is `Invalid` outside 0–99999, which a running core answers with UnknownOpcode(raw); inside, the
record's opcode and three digits are those of the decimal number. -/
def Obligations.DecodeReadsTheDecimalDigits : Prop :=
  ∀ c : Cell,
    (c.toInt < 0 ∨ 99999 < c.toInt → decodeFields c = none ∧
      ∀ s : State, s.status.reason = .running → s.ip < s.len → s.cell s.ip = c →
        step s = .next { s with status := { reason := .unknownOpcode, info := c.toInt } }) ∧
    (0 ≤ c.toInt → c.toInt ≤ 99999 → ∃ f, decodeFields c = some f ∧
      f.op ≤ 99 ∧ f.m1 ≤ 9 ∧ f.m2 ≤ 9 ∧ f.m3 ≤ 9 ∧
      c.toInt = f.op + 100 * f.m1 + 1000 * f.m2 + 10000 * f.m3)

/-- R89: the table of illegal cells, each with its stop and nothing else changed. -/
def Obligations.IllegalCellsStop : Prop :=
  ∀ s : State, s.status.reason = .running → s.ip < s.len →
    ((s.cell s.ip).toInt < 0 →
      step s = .next { s with status := { reason := .unknownOpcode, info := (s.cell s.ip).toInt } }) ∧
    (99999 < (s.cell s.ip).toInt →
      step s = .next { s with status := { reason := .unknownOpcode, info := (s.cell s.ip).toInt } }) ∧
    ∀ op m1 m2 m3 : Nat, op ≤ 99 → m1 ≤ 9 → m2 ≤ 9 → m3 ≤ 9 →
      (s.cell s.ip).toInt = op + 100 * m1 + 1000 * m2 + 10000 * m3 →
      (op = 0 ∨ (10 ≤ op ∧ op ≤ 98) →
        step s = .next { s with status := { reason := .unknownOpcode, info := op } }) ∧
      (op ∈ [1, 2, 7, 8] → 3 ≤ m1 ∨ 3 ≤ m2 ∨ 3 ≤ m3 →
        step s = .next { s with status := { reason := .invalidMode, info := (s.cell s.ip).toInt } }) ∧
      (op ∈ [5, 6] → 3 ≤ m1 ∨ 3 ≤ m2 →
        step s = .next { s with status := { reason := .invalidMode, info := (s.cell s.ip).toInt } }) ∧
      (op ∈ [3, 4, 9] → 3 ≤ m1 →
        step s = .next { s with status := { reason := .invalidMode, info := (s.cell s.ip).toInt } })

/-- R85, second half: cells that differ only in the digits their opcode does not use are instructions with the same
meaning. -/
def Obligations.UnusedModeDigitsAreIgnored : Prop :=
  ∀ (c c' : Cell) (i : Instr), decode c = .ok i → 0 ≤ c'.toInt → c'.toInt ≤ 99999 →
    c'.toInt % 10 ^ (2 + i.nparam) = c.toInt % 10 ^ (2 + i.nparam) →
    ∃ i', decode c' = .ok i' ∧ ∀ s, exec i' s = exec i s

/-- R92 and the opcode map of R88: cells written out from the spec decode to the instructions they stand for. -/
def Obligations.TheSpecsCellsDecode : Prop :=
  decodeFields 1002 = some { op := 2, m1 := 0, m2 := 1, m3 := 0 } ∧
  decodeFields 99 = some { op := 99, m1 := 0, m2 := 0, m3 := 0 } ∧
  decode 1002 = .ok (.mul .position .immediate .position) ∧
  decode 1001 = .ok (.add .position .immediate .position) ∧
  decode 203 = .ok (.inp .relative 0 0) ∧
  decode 204 = .ok (.out .relative 0 0) ∧
  decode 1105 = .ok (.jt .immediate .immediate 0) ∧
  decode 1006 = .ok (.jf .position .immediate 0) ∧
  decode 1107 = .ok (.lt .immediate .immediate .position) ∧
  decode 1008 = .ok (.eq .position .immediate .position) ∧
  decode 109 = .ok (.arb .immediate 0 0) ∧
  decode 99999 = .ok (.hlt 9 9 9)

/-! ### The step and the host -/

/-- R111: a running core whose cell at `ip` decodes runs exactly that instruction. -/
def Obligations.AStepRunsTheDecodedInstruction : Prop :=
  ∀ (s : State) (i : Instr), s.status.reason = .running → s.ip < s.len → decode (s.cell s.ip) = .ok i →
    step s = exec i s

/-- The placing of log 6: the next step runs the instruction whose bits were placed, wherever `ip` stands. -/
def Obligations.APlacedWordRunsNext : Prop :=
  ∀ (s : State) (nbits w : Nat) (i : Instr), decodeTableWord nbits w = some i →
    step (s.withFetchWord nbits w) = exec i (s.withFetchWord nbits w)

/-- R28: the code of each reason, that no two reasons share one, and the kind of each: two from which `run` starts the
engine (the startable and the resumable one) and seven terminal ones; Running is neither. -/
def Obligations.TheReasonCodes : Prop :=
  StopReason.notStarted.code = 0 ∧ StopReason.running.code = 1 ∧ StopReason.finished.code = 2 ∧
  StopReason.exhausted.code = 3 ∧ StopReason.inputEmpty.code = 4 ∧ StopReason.unknownOpcode.code = 5 ∧
  StopReason.negativeAddress.code = 6 ∧ StopReason.invalidMode.code = 7 ∧ StopReason.overflow.code = 8 ∧
  StopReason.capacityExceeded.code = 9 ∧ (∀ r q : StopReason, r.code = q.code → r = q) ∧
  ∀ r : StopReason, (r.startable = true ↔ r = .notStarted ∨ r = .inputEmpty) ∧
    (r.terminal = true ↔ r ∈ [.finished, .exhausted, .unknownOpcode, .negativeAddress, .invalidMode, .overflow,
      .capacityExceeded])

/-- R29: how the reason may change in one step, and because of what. -/
def Obligations.TheReasonFollowsTheStateDiagram : Prop :=
  ∀ s t : State, step s = .next t →
    t.status.reason = s.status.reason ∨
    (s.status.reason = .running ∧ t.status.reason ≠ .notStarted) ∨
    (s.status.reason.startable = true ∧ t.status.reason = .running ∧ ∃ b rest, s.pending = .run b :: rest) ∨
    (s.status.reason ≠ .running ∧ t.status.reason = .notStarted ∧ ∃ p rest, s.pending = .load p :: rest)

/-- R120, R121, R353: `run(batch)` from NotStarted or InputEmpty appends the batch and starts the engine and changes
nothing else; on a terminal reason it writes nothing and the batch is discarded. -/
def Obligations.RunStartsTheEngineOrDoesNothing : Prop :=
  ∀ (s : State) (batch : List Cell) (rest : List HostAction), s.pending = .run batch :: rest →
    (s.status.reason.startable = true →
      step s = .next { s with
        pending := rest, inq := s.inq ++ batch, status := { reason := .running, info := s.status.info } }) ∧
    (s.status.reason.terminal = true → step s = .next { s with pending := rest })

/-- R38, R350: a load of at most `TAPE_CAP` cells gives the reset state with those cells, the parameters kept. That a
longer program is refused, as programTooLong, is the model's reading of R350 and D23 (log 9). -/
def Obligations.LoadResetsTheCore : Prop :=
  ∀ (s : State) (program : List Cell) (rest : List HostAction), s.status.reason ≠ .running →
    s.pending = .load program :: rest →
    (program.length ≤ s.cfg.tapeCap → ∃ t, step s = .next t ∧
      (∀ a, t.cell a = program.getD a 0) ∧ t.len = program.length ∧ t.ip = 0 ∧ t.rb = 0 ∧
      t.status = { reason := .notStarted, info := 0 } ∧ t.inq = [] ∧ t.outlog = [] ∧
      t.cfg = s.cfg ∧ t.pending = rest) ∧
    (s.cfg.tapeCap < program.length → step s = .refused (.programTooLong program.length))

/-- R124: the host's tape write changes one existing cell and nothing else, its discard empties the queue and nothing
else; the model's choices of log 8 (a write to a cell that does not exist faults) and log 5 (with no host action to
come, a core that does not run stays as it is). -/
def Obligations.TheHostActsBetweenRuns : Prop :=
  ∀ (s : State) (rest : List HostAction), s.status.reason ≠ .running →
    (∀ a v, s.pending = .writeCell a v :: rest → a < s.len → ∃ t, step s = .next t ∧
      t = { s with tape := t.tape, pending := rest } ∧ ∀ b, t.cell b = if b = a then v else s.cell b) ∧
    (∀ a v, s.pending = .writeCell a v :: rest → s.len ≤ a → step s = .fault (.hostWriteOutside a)) ∧
    (s.pending = .discardInput :: rest → step s = .next { s with inq := [], pending := rest }) ∧
    (s.pending = [] → step s = .next s)

/-- R66, R124: the host and the core never act at once. While the engine runs every host read gives nothing, and a step
is the same whatever host actions are to come and leaves them as they are, so no write, load or run lands in it.
Between runs the reads give `T[a]` for an existing cell, `len`, the RunState and the leftover input. (That a read while
the engine runs is `none` is the model's form, log 15.) -/
def Obligations.TheHostAccessesTheTapeOnlyBetweenRuns : Prop :=
  ∀ s : State,
    (s.status.reason = .running →
      (∀ a, hostRead a s = none) ∧ hostReadLen s = none ∧ s.runState = none ∧ hostReadInput s = none ∧
      ∃ t, step s = .next t ∧ t.pending = s.pending ∧
        ∀ acts, step { s with pending := acts } = .next { t with pending := acts }) ∧
    (s.status.reason ≠ .running →
      (∀ a, a < s.len → hostRead a s = some (s.cell a)) ∧ (∀ a, s.len ≤ a → hostRead a s = none) ∧
      hostReadLen s = some s.len ∧ hostReadInput s = some s.inq ∧
      s.runState = some { ip := s.ip, rb := s.rb, outlog := s.outlog, status := s.status })

/-- R33, R35: over any run without a reset, no output is lost or changed and the tape never shrinks. -/
def Obligations.OutputAndLengthOnlyGrow : Prop :=
  ∀ (n : Nat) (s t : State), (∀ act ∈ s.pending, act.isLoad = false) → runFor n s = .next t →
    s.outlog <+: t.outlog ∧ s.len ≤ t.len

/-- R308: after a terminal stop any number of `run` commands changes nothing; they are used up, no more. -/
def Obligations.TerminalStopsAreFinal : Prop :=
  ∀ (n : Nat) (s : State), s.status.reason.terminal = true → (∀ act ∈ s.pending, ∃ batch, act = .run batch) →
    runFor n s = .next { s with pending := s.pending.drop n }

/-- R123: a jump to itself on a nonzero literal runs forever, with the state unchanged. -/
def Obligations.ASelfJumpNeverStops : Prop :=
  ∀ (s : State), s.status.reason = .running → s.ip + 2 < s.len → s.len ≤ s.cfg.tapeCap →
    s.cell s.ip = 1105 → (s.param 1).toInt ≠ 0 → (s.param 2).toInt = s.ip →
    ∀ n, runFor n s = .next s

/-- R122: suspending and resuming is invisible. If a run of `first` stops with InputEmpty, then resuming it with
`second` continues exactly, step for step and for ever, as the one run of `first ++ second` does from some step on.
(The premise on `info` holds in every reachable state: it is part of the invariant.) -/
def Obligations.ResumptionIsInvisible : Prop :=
  ∀ (s t : State) (first second : List Cell) (n : Nat), s.status.reason.startable = true → s.status.info = 0 →
    s.pending = [] → runFor n (hostRun first s) = .next t → t.status.reason = .inputEmpty →
    ∃ j, ∀ k, runFor (j + k) (hostRun (first ++ second) s) =
      runFor k (hostRun second t)

/-- R122, over any number of calls: a run split into batches that comes to rest gives the tape, `len`, `ip`, `rb`,
`outlog` and status of the one run with their concatenation. -/
def Obligations.AnySplitOfTheInputGivesTheSameRun : Prop :=
  ∀ (s t : State) (batches : List (List Cell)) (n : Nat), batches ≠ [] → s.status.reason.startable = true →
    s.status.info = 0 → s.pending = batches.map .run → runFor n s = .next t →
    t.pending = [] → t.status.reason ≠ .running →
    ∃ k u, runFor k { s with pending := [.run batches.flatten] } = .next u ∧
      u.pending = [] ∧ u.tape = t.tape ∧ u.len = t.len ∧ u.ip = t.ip ∧ u.rb = t.rb ∧ u.outlog = t.outlog ∧
      u.status = t.status

/-! ### The invariant -/

/-- The state after reset, with the model's choices of logs 3, 4 and 7 (no program, the reference parameters, no host
action), meets the invariant, and is what loading the empty program gives. -/
def Obligations.ResetMeetsTheInvariant : Prop :=
  State.reset.Inv ∧ State.reset = loaded [] State.reset

/-- From every state that meets the invariant (the ranges of R5, R20, R22, R27 and R33, the canonical tape, the info
of 0 of a core that can go on), every step, an instruction or a host action, gives a state that meets it. -/
def Obligations.EveryStepKeepsTheInvariant : Prop :=
  ∀ s t : State, s.Inv → step s = .next t → t.Inv
end

