-- ==== Sys2Proof/Laws/State.lean ====
section
/-! SUPPORT. One lemma per field per update of `State`, so that no later proof unfolds a record update. -/

namespace Sys2Proof.Machine

@[simp] theorem State.raise_tape (s : State) (x : Status) : (s.raise x).tape = s.tape := rfl
@[simp] theorem State.raise_len (s : State) (x : Status) : (s.raise x).len = s.len := rfl
@[simp] theorem State.raise_ip (s : State) (x : Status) : (s.raise x).ip = s.ip := rfl
@[simp] theorem State.raise_rb (s : State) (x : Status) : (s.raise x).rb = s.rb := rfl
@[simp] theorem State.raise_status (s : State) (x : Status) : (s.raise x).status = x := rfl
@[simp] theorem State.raise_inq (s : State) (x : Status) : (s.raise x).inq = s.inq := rfl
@[simp] theorem State.raise_outlog (s : State) (x : Status) : (s.raise x).outlog = s.outlog := rfl
@[simp] theorem State.raise_cfg (s : State) (x : Status) : (s.raise x).cfg = s.cfg := rfl
@[simp] theorem State.raise_pending (s : State) (x : Status) : (s.raise x).pending = s.pending := rfl

@[simp] theorem State.setIp_tape (s : State) (a : Nat) : (s.setIp a).tape = s.tape := rfl
@[simp] theorem State.setIp_len (s : State) (a : Nat) : (s.setIp a).len = s.len := rfl
@[simp] theorem State.setIp_ip (s : State) (a : Nat) : (s.setIp a).ip = a := rfl
@[simp] theorem State.setIp_rb (s : State) (a : Nat) : (s.setIp a).rb = s.rb := rfl
@[simp] theorem State.setIp_status (s : State) (a : Nat) : (s.setIp a).status = s.status := rfl
@[simp] theorem State.setIp_inq (s : State) (a : Nat) : (s.setIp a).inq = s.inq := rfl
@[simp] theorem State.setIp_outlog (s : State) (a : Nat) : (s.setIp a).outlog = s.outlog := rfl
@[simp] theorem State.setIp_cfg (s : State) (a : Nat) : (s.setIp a).cfg = s.cfg := rfl
@[simp] theorem State.setIp_pending (s : State) (a : Nat) : (s.setIp a).pending = s.pending := rfl

@[simp] theorem State.setRb_tape (s : State) (v : Cell) : (s.setRb v).tape = s.tape := rfl
@[simp] theorem State.setRb_len (s : State) (v : Cell) : (s.setRb v).len = s.len := rfl
@[simp] theorem State.setRb_ip (s : State) (v : Cell) : (s.setRb v).ip = s.ip := rfl
@[simp] theorem State.setRb_rb (s : State) (v : Cell) : (s.setRb v).rb = v := rfl
@[simp] theorem State.setRb_status (s : State) (v : Cell) : (s.setRb v).status = s.status := rfl
@[simp] theorem State.setRb_inq (s : State) (v : Cell) : (s.setRb v).inq = s.inq := rfl
@[simp] theorem State.setRb_outlog (s : State) (v : Cell) : (s.setRb v).outlog = s.outlog := rfl
@[simp] theorem State.setRb_cfg (s : State) (v : Cell) : (s.setRb v).cfg = s.cfg := rfl
@[simp] theorem State.setRb_pending (s : State) (v : Cell) : (s.setRb v).pending = s.pending := rfl

@[simp] theorem State.setInq_tape (s : State) (q : List Cell) : (s.setInq q).tape = s.tape := rfl
@[simp] theorem State.setInq_len (s : State) (q : List Cell) : (s.setInq q).len = s.len := rfl
@[simp] theorem State.setInq_ip (s : State) (q : List Cell) : (s.setInq q).ip = s.ip := rfl
@[simp] theorem State.setInq_rb (s : State) (q : List Cell) : (s.setInq q).rb = s.rb := rfl
@[simp] theorem State.setInq_status (s : State) (q : List Cell) : (s.setInq q).status = s.status := rfl
@[simp] theorem State.setInq_inq (s : State) (q : List Cell) : (s.setInq q).inq = q := rfl
@[simp] theorem State.setInq_outlog (s : State) (q : List Cell) : (s.setInq q).outlog = s.outlog := rfl
@[simp] theorem State.setInq_cfg (s : State) (q : List Cell) : (s.setInq q).cfg = s.cfg := rfl
@[simp] theorem State.setInq_pending (s : State) (q : List Cell) : (s.setInq q).pending = s.pending := rfl

@[simp] theorem State.appendOut_tape (s : State) (v : Cell) : (s.appendOut v).tape = s.tape := rfl
@[simp] theorem State.appendOut_len (s : State) (v : Cell) : (s.appendOut v).len = s.len := rfl
@[simp] theorem State.appendOut_ip (s : State) (v : Cell) : (s.appendOut v).ip = s.ip := rfl
@[simp] theorem State.appendOut_rb (s : State) (v : Cell) : (s.appendOut v).rb = s.rb := rfl
@[simp] theorem State.appendOut_status (s : State) (v : Cell) : (s.appendOut v).status = s.status := rfl
@[simp] theorem State.appendOut_inq (s : State) (v : Cell) : (s.appendOut v).inq = s.inq := rfl
@[simp] theorem State.appendOut_outlog (s : State) (v : Cell) : (s.appendOut v).outlog = s.outlog ++ [v] := rfl
@[simp] theorem State.appendOut_cfg (s : State) (v : Cell) : (s.appendOut v).cfg = s.cfg := rfl
@[simp] theorem State.appendOut_pending (s : State) (v : Cell) : (s.appendOut v).pending = s.pending := rfl

@[simp] theorem State.store_tape (s : State) (a : Nat) (v : Cell) : (s.store a v).tape = s.tape.write a v := rfl
@[simp] theorem State.store_len (s : State) (a : Nat) (v : Cell) : (s.store a v).len = s.len := rfl
@[simp] theorem State.store_ip (s : State) (a : Nat) (v : Cell) : (s.store a v).ip = s.ip := rfl
@[simp] theorem State.store_rb (s : State) (a : Nat) (v : Cell) : (s.store a v).rb = s.rb := rfl
@[simp] theorem State.store_status (s : State) (a : Nat) (v : Cell) : (s.store a v).status = s.status := rfl
@[simp] theorem State.store_inq (s : State) (a : Nat) (v : Cell) : (s.store a v).inq = s.inq := rfl
@[simp] theorem State.store_outlog (s : State) (a : Nat) (v : Cell) : (s.store a v).outlog = s.outlog := rfl
@[simp] theorem State.store_cfg (s : State) (a : Nat) (v : Cell) : (s.store a v).cfg = s.cfg := rfl
@[simp] theorem State.store_pending (s : State) (a : Nat) (v : Cell) : (s.store a v).pending = s.pending := rfl

@[simp] theorem State.grow_tape (s : State) (a : Nat) : (s.grow a).tape = s.tape.zeroFill s.len (growLen s.cfg s.len a) := rfl
@[simp] theorem State.grow_len (s : State) (a : Nat) : (s.grow a).len = growLen s.cfg s.len a := rfl
@[simp] theorem State.grow_ip (s : State) (a : Nat) : (s.grow a).ip = s.ip := rfl
@[simp] theorem State.grow_rb (s : State) (a : Nat) : (s.grow a).rb = s.rb := rfl
@[simp] theorem State.grow_status (s : State) (a : Nat) : (s.grow a).status = s.status := rfl
@[simp] theorem State.grow_inq (s : State) (a : Nat) : (s.grow a).inq = s.inq := rfl
@[simp] theorem State.grow_outlog (s : State) (a : Nat) : (s.grow a).outlog = s.outlog := rfl
@[simp] theorem State.grow_cfg (s : State) (a : Nat) : (s.grow a).cfg = s.cfg := rfl
@[simp] theorem State.grow_pending (s : State) (a : Nat) : (s.grow a).pending = s.pending := rfl

@[simp] theorem State.touch_ip (s : State) (a : Nat) : (s.touch a).ip = s.ip := by
  unfold State.touch; split <;> rfl
@[simp] theorem State.touch_rb (s : State) (a : Nat) : (s.touch a).rb = s.rb := by
  unfold State.touch; split <;> rfl
@[simp] theorem State.touch_status (s : State) (a : Nat) : (s.touch a).status = s.status := by
  unfold State.touch; split <;> rfl
@[simp] theorem State.touch_inq (s : State) (a : Nat) : (s.touch a).inq = s.inq := by
  unfold State.touch; split <;> rfl
@[simp] theorem State.touch_outlog (s : State) (a : Nat) : (s.touch a).outlog = s.outlog := by
  unfold State.touch; split <;> rfl
@[simp] theorem State.touch_cfg (s : State) (a : Nat) : (s.touch a).cfg = s.cfg := by
  unfold State.touch; split <;> rfl
@[simp] theorem State.touch_pending (s : State) (a : Nat) : (s.touch a).pending = s.pending := by
  unfold State.touch; split <;> rfl

@[simp] theorem State.touch_len (s : State) (a : Nat) : (s.touch a).len = touchLen s.cfg s.len a := by
  unfold State.touch touchLen; split <;> rfl

/-- Two states that agree on every field are equal. -/
theorem State.ext_fields {s t : State} (h1 : s.tape = t.tape) (h2 : s.len = t.len) (h3 : s.ip = t.ip)
    (h4 : s.rb = t.rb) (h5 : s.status = t.status) (h6 : s.inq = t.inq) (h7 : s.outlog = t.outlog)
    (h8 : s.cfg = t.cfg) (h9 : s.pending = t.pending) : s = t := by
  cases s; cases t; simp_all

end Sys2Proof.Machine
end

