-- ==== Sys2Proof/Laws/Memory.lean ====
section
/-! SUPPORT. The laws of the tape: what a read finds after each operation, and that each keeps the canonical form. -/

namespace Sys2Proof.Machine

/-! ### Reading after an operation -/

@[simp] theorem Memory.read_nil (a : Nat) : Memory.read [] a = 0 := rfl

/-- Filtering entries by address hides exactly the filtered addresses. -/
theorem Memory.read_filter_key (m : Memory) (keep : Nat → Bool) (a : Nat) :
    Memory.read (m.filter fun e => keep e.1) a = if keep a = true then m.read a else 0 := by
  induction m with
  | nil => simp
  | cons e m ih =>
    obtain ⟨b, v⟩ := e
    by_cases hb : keep b = true <;> by_cases hab : a = b <;> simp_all [Memory.read]

/-- An inserted entry is found, and hides no other address. -/
theorem Memory.read_insertCell (m : Memory) (a b : Nat) (v : Cell) (h : ∀ e ∈ m, e.1 ≠ a) :
    (Memory.insertCell a v m).read b = if b = a then v else m.read b := by
  induction m with
  | nil => simp [Memory.insertCell, Memory.read]
  | cons e m ih =>
    obtain ⟨c, w⟩ := e
    have hc : c ≠ a := h (c, w) (by simp)
    have ih := ih fun e he => h e (by simp [he])
    unfold Memory.insertCell
    by_cases hac : a < c
    · rw [if_pos hac]; simp only [Memory.read]
    · rw [if_neg hac]; simp only [Memory.read, ih]
      by_cases hbc : b = c
      · subst hbc; simp [hc]
      · simp [hbc]

/-- A read after a write: the value at the written address, and every other address as before. -/
theorem Memory.read_write (m : Memory) (a b : Nat) (v : Cell) :
    (m.write a v).read b = if b = a then v else m.read b := by
  unfold Memory.write
  by_cases hv : v = 0
  · subst hv
    simp only [if_true]
    rw [Memory.read_filter_key m (fun k => k != a)]
    by_cases hba : b = a <;> simp [hba]
  · simp only [if_neg hv]
    rw [Memory.read_insertCell _ _ _ _ (by simp), Memory.read_filter_key m (fun k => k != a)]
    by_cases hba : b = a <;> simp [hba]

/-- A read after zero-filling `lo ≤ b < hi`. -/
theorem Memory.read_zeroFill (m : Memory) (lo hi b : Nat) :
    (m.zeroFill lo hi).read b = if lo ≤ b ∧ b < hi then 0 else m.read b := by
  unfold Memory.zeroFill
  rw [Memory.read_filter_key m (fun k => decide (k < lo) || decide (hi ≤ k))]
  by_cases h1 : b < lo <;> by_cases h2 : hi ≤ b <;> simp [h1, h2]

/-- Laying cells out from `a`: address `a + n` holds cell `n`, and every other address 0. -/
theorem Memory.read_ofCells (vs : List Cell) (a b : Nat) :
    (Memory.ofCells a vs).read b = if a ≤ b then vs.getD (b - a) 0 else 0 := by
  induction vs generalizing a with
  | nil => simp [Memory.ofCells]
  | cons v vs ih =>
    unfold Memory.ofCells
    by_cases hb : b = a
    · subst hb
      by_cases hv : v = 0
      · rw [if_pos hv, ih]; simp [hv]
      · rw [if_neg hv]; simp [Memory.read]
    · have hrec : (Memory.ofCells (a + 1) vs).read b = if a ≤ b then (v :: vs).getD (b - a) 0 else 0 := by
        rw [ih]
        by_cases hab : a ≤ b
        · have h1 : b - a = (b - (a + 1)) + 1 := by omega
          rw [if_pos (by omega), if_pos hab, h1]; simp
        · rw [if_neg (by omega), if_neg hab]
      by_cases hv : v = 0
      · rw [if_pos hv]; exact hrec
      · rw [if_neg hv]; simp only [Memory.read, if_neg hb]; exact hrec

/-! ### The canonical form -/

theorem Memory.wf_nil : Memory.wf [] := ⟨List.Pairwise.nil, by simp⟩

theorem Memory.wf_filter {m : Memory} (h : m.wf) (p : Nat × Cell → Bool) : Memory.wf (m.filter p) :=
  ⟨h.1.filter p, fun e he => h.2 e (List.mem_of_mem_filter he)⟩

theorem Memory.mem_insertCell {m : Memory} {a : Nat} {v : Cell} {e : Nat × Cell} :
    e ∈ Memory.insertCell a v m ↔ e = (a, v) ∨ e ∈ m := by
  induction m with
  | nil => simp [Memory.insertCell]
  | cons f m ih =>
    unfold Memory.insertCell
    split
    · simp
    · simp only [List.mem_cons, ih]; tauto

theorem Memory.wf_insertCell {m : Memory} (h : m.wf) {a : Nat} {v : Cell} (hv : v ≠ 0)
    (ha : ∀ e ∈ m, e.1 ≠ a) : Memory.wf (Memory.insertCell a v m) := by
  induction m with
  | nil => exact ⟨List.pairwise_singleton _ _, by simpa [Memory.insertCell] using hv⟩
  | cons f m ih =>
    obtain ⟨hp, hz⟩ := h
    rw [List.pairwise_cons] at hp
    have hfa : f.1 ≠ a := ha f (by simp)
    have hm : Memory.wf m := ⟨hp.2, fun e he => hz e (by simp [he])⟩
    obtain ⟨ihp, ihz⟩ := ih hm fun e he => ha e (by simp [he])
    unfold Memory.insertCell
    split
    · rename_i hlt
      refine ⟨List.pairwise_cons.2 ⟨?_, List.pairwise_cons.2 hp⟩, ?_⟩
      · intro e he
        rcases List.mem_cons.1 he with rfl | he
        · exact hlt
        · exact lt_trans hlt (hp.1 e he)
      · intro e he
        rcases List.mem_cons.1 he with rfl | he
        · exact hv
        · exact hz e he
    · rename_i hge
      refine ⟨List.pairwise_cons.2 ⟨?_, ihp⟩, ?_⟩
      · intro e he
        rcases Memory.mem_insertCell.1 he with rfl | he
        · show f.1 < a; omega
        · exact hp.1 e he
      · intro e he
        rcases List.mem_cons.1 he with rfl | he
        · exact hz e (by simp)
        · exact ihz e he

/-- A write keeps the canonical form. -/
theorem Memory.wf_write {m : Memory} (h : m.wf) (a : Nat) (v : Cell) : Memory.wf (m.write a v) := by
  unfold Memory.write
  have hf := Memory.wf_filter h fun e => e.1 != a
  split
  · exact hf
  · rename_i hv
    exact Memory.wf_insertCell hf hv (by simp)

/-- Zero-filling keeps the canonical form. -/
theorem Memory.wf_zeroFill {m : Memory} (h : m.wf) (lo hi : Nat) : Memory.wf (m.zeroFill lo hi) :=
  Memory.wf_filter h _

/-- The entries a write leaves are the written one and old ones. -/
theorem Memory.mem_write {m : Memory} {a : Nat} {v : Cell} {e : Nat × Cell} (he : e ∈ m.write a v) :
    e = (a, v) ∨ e ∈ m := by
  unfold Memory.write at he
  split at he
  · exact .inr (List.mem_of_mem_filter he)
  · rcases Memory.mem_insertCell.1 he with h | h
    · exact .inl h
    · exact .inr (List.mem_of_mem_filter h)

/-- The entries of a laid-out program lie inside it and are not 0. -/
theorem Memory.mem_ofCells {vs : List Cell} {a : Nat} {e : Nat × Cell} (he : e ∈ Memory.ofCells a vs) :
    a ≤ e.1 ∧ e.1 < a + vs.length ∧ e.2 ≠ 0 := by
  induction vs generalizing a with
  | nil => simp [Memory.ofCells] at he
  | cons v vs ih =>
    unfold Memory.ofCells at he
    simp only [List.length_cons]
    by_cases hv : v = 0
    · rw [if_pos hv] at he
      have := ih he
      exact ⟨by omega, by omega, this.2.2⟩
    · rw [if_neg hv] at he
      rcases List.mem_cons.1 he with rfl | he
      · exact ⟨by simp, by simp, hv⟩
      · have := ih he
        exact ⟨by omega, by omega, this.2.2⟩

/-- A laid-out program is in canonical form. -/
theorem Memory.wf_ofCells (vs : List Cell) (a : Nat) : Memory.wf (Memory.ofCells a vs) := by
  refine ⟨?_, fun e he => (Memory.mem_ofCells he).2.2⟩
  induction vs generalizing a with
  | nil => simp [Memory.ofCells]
  | cons v vs ih =>
    unfold Memory.ofCells
    split
    · exact ih (a + 1)
    · refine List.pairwise_cons.2 ⟨fun e he => ?_, ih (a + 1)⟩
      have := (Memory.mem_ofCells he).1
      show a < e.1
      omega

end Sys2Proof.Machine
end

