-- ==== Sys2Proof/Laws/Ops.lean ====
section
/-! SUPPORT. What each shared operation of Machine/Ops.lean can do, said once: growth, access, fetch. -/

namespace Sys2Proof.Machine

/-! ### Growth -/

/-- `GrowLen` stays within the capacity (rule R55). -/
theorem growLen_le_cap (c : Config) (len a : Nat) : growLen c len a ≤ c.tapeCap := Nat.min_le_left _ _

/-- `GrowLen` grants the cell and the margin of two (rule R55). -/
theorem min_le_growLen (c : Config) (len a : Nat) : min c.tapeCap (a + 3) ≤ growLen c len a := by
  unfold growLen; omega

/-- After an access below the capacity the cell exists. -/
theorem lt_touchLen {c : Config} {a : Nat} (h : a < c.tapeCap) (len : Nat) : a < touchLen c len a := by
  have := min_le_growLen c len a
  unfold touchLen; split <;> omega

/-- Growth never shrinks (rules R33, R55). -/
theorem le_touchLen {c : Config} {a : Nat} (h : a < c.tapeCap) (len : Nat) : len ≤ touchLen c len a := by
  have := min_le_growLen c len a
  unfold touchLen; split <;> omega

theorem touchLen_le_cap {c : Config} {len : Nat} (h : len ≤ c.tapeCap) (a : Nat) :
    touchLen c len a ≤ c.tapeCap := by
  have := growLen_le_cap c len a
  unfold touchLen; split <;> omega

/-- Growth changes no cell a program can read (rules R55, R306). -/
theorem State.cell_touch {s : State} {a : Nat} (h : a < s.cfg.tapeCap) (b : Nat) :
    (s.touch a).cell b = s.cell b := by
  have hg := lt_touchLen h s.len
  unfold touchLen at hg
  unfold State.touch State.cell
  split
  · rename_i hl
    simp only [if_pos hl] at hg
    simp only [State.grow_len, State.grow_tape, Memory.read_zeroFill]
    by_cases h1 : b < s.len
    · rw [if_pos (by omega), if_neg (by omega), if_pos h1]
    · by_cases h2 : b < growLen s.cfg s.len a
      · rw [if_pos h2, if_pos (by omega), if_neg h1]
      · rw [if_neg h2, if_neg h1]
  · rfl

/-- The cell just touched reads from the tape itself. -/
theorem State.read_touch {s : State} {a : Nat} (h : a < s.cfg.tapeCap) :
    (s.touch a).tape.read a = s.cell a := by
  rw [← State.cell_touch h a, State.cell, if_pos (by simpa using lt_touchLen h s.len)]

/-- A store into a cell that exists, read back. -/
theorem State.cell_store {s : State} {a : Nat} (h : a < s.len) (v : Cell) (b : Nat) :
    (s.store a v).cell b = if b = a then v else s.cell b := by
  unfold State.cell
  simp only [State.store_len, State.store_tape, Memory.read_write]
  by_cases hb : b = a
  · subst hb; simp [h]
  · simp [hb]

/-- Growth keeps the canonical form. -/
theorem State.wf_touch {s : State} (h : Memory.wf s.tape) (a : Nat) : Memory.wf (s.touch a).tape := by
  unfold State.touch; split
  · exact Memory.wf_zeroFill h _ _
  · exact h

/-- Growth leaves every listed cell inside the tape. -/
theorem State.keys_touch {s : State} {a : Nat} (ha : a < s.cfg.tapeCap) (h : ∀ e ∈ s.tape, e.1 < s.len) :
    ∀ e ∈ (s.touch a).tape, e.1 < (s.touch a).len := by
  intro e he
  have hl := le_touchLen ha s.len
  rw [State.touch_len]
  unfold State.touch at he
  split at he
  · have := h e (List.mem_of_mem_filter he); omega
  · have := h e he; omega

/-! ### Growth and nothing else -/

/-- `Grew`, with what the invariant needs of the tape as data. -/
structure Grows (s t : State) (n : Nat) : Prop where
  grew : Grew s t n
  wf : Memory.wf s.tape → Memory.wf t.tape
  keys : (∀ e ∈ s.tape, e.1 < s.len) → ∀ e ∈ t.tape, e.1 < t.len

theorem Grows.refl (s : State) : Grows s s s.len := ⟨⟨rfl, fun _ => rfl⟩, id, id⟩

theorem Grows.cells {s t : State} {n : Nat} (h : Grows s t n) (a : Nat) : t.cell a = s.cell a := h.grew.2 a
theorem Grows.ip {s t : State} {n : Nat} (h : Grows s t n) : t.ip = s.ip := by rw [h.grew.1]
theorem Grows.rb {s t : State} {n : Nat} (h : Grows s t n) : t.rb = s.rb := by rw [h.grew.1]
theorem Grows.status {s t : State} {n : Nat} (h : Grows s t n) : t.status = s.status := by rw [h.grew.1]
theorem Grows.inq {s t : State} {n : Nat} (h : Grows s t n) : t.inq = s.inq := by rw [h.grew.1]
theorem Grows.outlog {s t : State} {n : Nat} (h : Grows s t n) : t.outlog = s.outlog := by rw [h.grew.1]
theorem Grows.cfg {s t : State} {n : Nat} (h : Grows s t n) : t.cfg = s.cfg := by rw [h.grew.1]
theorem Grows.pending {s t : State} {n : Nat} (h : Grows s t n) : t.pending = s.pending := by rw [h.grew.1]
theorem Grows.len {s t : State} {n : Nat} (h : Grows s t n) : t.len = n := by rw [h.grew.1]

theorem Grows.trans {s t u : State} {n k : Nat} (h1 : Grows s t n) (h2 : Grows t u k) : Grows s u k where
  grew := ⟨State.ext_fields rfl h2.len (h2.ip.trans h1.ip) (h2.rb.trans h1.rb) (h2.status.trans h1.status)
    (h2.inq.trans h1.inq) (h2.outlog.trans h1.outlog) (h2.cfg.trans h1.cfg) (h2.pending.trans h1.pending),
    fun a => (h2.cells a).trans (h1.cells a)⟩
  wf h := h2.wf (h1.wf h)
  keys h := h2.keys (h1.keys h)

/-- An access below the capacity only grows. -/
theorem grows_touch {s : State} {a : Nat} (h : a < s.cfg.tapeCap) :
    Grows s (s.touch a) (touchLen s.cfg s.len a) where
  grew := ⟨State.ext_fields rfl (by simp) (by simp) (by simp) (by simp) (by simp) (by simp) (by simp) (by simp),
    State.cell_touch h⟩
  wf h := State.wf_touch h a
  keys hk := State.keys_touch h hk

/-- Raising a stop after growth is `Stopped`. -/
theorem Grows.raise {s t : State} {n : Nat} (h : Grows s t n) (x : Status) : Stopped s (t.raise x) x n :=
  ⟨State.ext_fields rfl h.len h.ip h.rb rfl h.inq h.outlog h.cfg h.pending, h.cells⟩

/-! ### Access -/

theorem addressStop_eq_none {c : Config} {a : Int} :
    addressStop c a = none ↔ 0 ≤ a ∧ a < (c.tapeCap : Int) := by
  unfold addressStop; split
  · simp; omega
  · split
    · simp; omega
    · simp; omega

/-- The address checks, all cases (rule R52). -/
theorem checkAddress_eq (a : Int) (s : State) :
    checkAddress a s = match addressStop s.cfg a with | some x => .stop x s | none => .ok a.toNat s := by
  unfold checkAddress addressStop; split
  · rfl
  · split <;> rfl

/-- `MemRead`, all cases (rule R53). -/
theorem memRead_eq (a : Int) (s : State) :
    memRead a s = match addressStop s.cfg a with
      | some x => .stop x s
      | none => .ok (s.cell a.toNat) (s.touch a.toNat) := by
  unfold memRead
  rw [checkAddress_eq]
  cases h : addressStop s.cfg a with
  | some x => rfl
  | none =>
    have := addressStop_eq_none.1 h
    simp only [Res.bind]
    rw [State.read_touch (by omega)]

/-- `MemWrite`, all cases (rule R54). -/
theorem memWrite_eq (a : Int) (v : Cell) (s : State) :
    memWrite a v s = match addressStop s.cfg a with
      | some x => .stop x s
      | none => .ok () ((s.touch a.toNat).store a.toNat v) := by
  unfold memWrite
  rw [checkAddress_eq]
  cases h : addressStop s.cfg a with
  | some x => rfl
  | none => rfl

/-- The cells after `MemWrite` to an address below the capacity. -/
theorem cell_touch_store {s : State} {a : Nat} (h : a < s.cfg.tapeCap) (v : Cell) (b : Nat) :
    ((s.touch a).store a v).cell b = if b = a then v else s.cell b := by
  rw [State.cell_store (by simpa using lt_touchLen h s.len), State.cell_touch h]

/-! ### The walk of an access list -/

theorem walk_nil (c : Config) (len : Nat) : walk c len [] = (none, len) := rfl

theorem walk_cons_stop {c : Config} {x : Access} {st : Status} (h : addressStop c x.addr = some st) (len : Nat)
    (xs : List Access) : walk c len (x :: xs) = (some st, len) := by
  simp [walk, h]

theorem walk_cons_ok {c : Config} {x : Access} (h : addressStop c x.addr = none) (len : Nat)
    (xs : List Access) :
    walk c len (x :: xs) = walk c (if x.grows = true then touchLen c len x.addr.toNat else len) xs := by
  simp [walk, h]

/-- Accesses made one list after the other. -/
theorem walk_append (c : Config) (len : Nat) (xs ys : List Access) :
    walk c len (xs ++ ys) = match walk c len xs with
      | (some st, n) => (some st, n)
      | (none, n) => walk c n ys := by
  induction xs generalizing len with
  | nil => rfl
  | cons x xs ih =>
    cases h : addressStop c x.addr with
    | some st => rw [List.cons_append, walk_cons_stop h, walk_cons_stop h]
    | none => rw [List.cons_append, walk_cons_ok h, walk_cons_ok h, ih]

/-- A walk never shrinks the tape. -/
theorem le_walk (c : Config) (len : Nat) (xs : List Access) : len ≤ (walk c len xs).2 := by
  induction xs generalizing len with
  | nil => exact le_rfl
  | cons x xs ih =>
    cases h : addressStop c x.addr with
    | some st => rw [walk_cons_stop h]
    | none =>
      rw [walk_cons_ok h]
      have ha := addressStop_eq_none.1 h
      refine le_trans ?_ (ih _)
      split
      · exact le_touchLen (by omega) len
      · exact le_rfl

/-- A walk stays within the capacity. -/
theorem walk_le_cap {c : Config} {len : Nat} (hl : len ≤ c.tapeCap) (xs : List Access) :
    (walk c len xs).2 ≤ c.tapeCap := by
  induction xs generalizing len with
  | nil => exact hl
  | cons x xs ih =>
    cases h : addressStop c x.addr with
    | some st => rw [walk_cons_stop h]; exact hl
    | none =>
      rw [walk_cons_ok h]
      apply ih
      split
      · exact touchLen_le_cap hl _
      · exact hl

/-- A walk passes exactly if every access passes. -/
theorem walk_eq_none {c : Config} {len : Nat} {xs : List Access} :
    (walk c len xs).1 = none ↔ ∀ x ∈ xs, 0 ≤ x.addr ∧ x.addr < (c.tapeCap : Int) := by
  induction xs generalizing len with
  | nil => simp [walk]
  | cons x xs ih =>
    cases h : addressStop c x.addr with
    | some st =>
      rw [walk_cons_stop h]
      simp only [List.forall_mem_cons, ← addressStop_eq_none, h]
      simp
    | none => rw [walk_cons_ok h, ih, List.forall_mem_cons, ← addressStop_eq_none, h]; simp

/-- `Passes` is a walk without a stop. -/
theorem walk_of_passes {s : State} {xs : List Access} (h : Passes s xs) (len : Nat) :
    (walk s.cfg len xs).1 = none := walk_eq_none.2 h

/-! ### Fetch -/

/-- A fetch below the tape length finds the cell there (rule R57). -/
theorem fetchCell_of_lt {s : State} {a : Nat} (h : a < s.len) : fetchCell a s = .ok (s.cell a) s := by
  unfold fetchCell State.cell
  rw [if_neg (by omega), if_pos h]

/-- A fetch at or past it stops (rule R57). -/
theorem fetchCell_of_le {s : State} {a : Nat} (h : s.len ≤ a) :
    fetchCell a s = .stop { reason := .exhausted, info := a } s := by
  unfold fetchCell
  rw [if_pos h]

/-- The prologue of a step, all cases (rules R57, R111). -/
theorem fetchInstr_eq (s : State) :
    fetchInstr s =
      if s.len ≤ s.ip then .stop { reason := .exhausted, info := s.ip } s
      else match decode (s.cell s.ip) with
        | .ok i => .ok i s
        | .error r => .stop (Reject.status r) s := by
  unfold fetchInstr
  split
  · rename_i h; rw [fetchCell_of_le h]; rfl
  · rename_i h; rw [fetchCell_of_lt (by omega)]; rfl

end Sys2Proof.Machine
end

