-- ==== Sys2Proof/Laws/Operands.lean ====
section
/-! SUPPORT. What the resolver and the two shared instruction forms can do, in terms of the accesses they make. -/

namespace Sys2Proof.Machine

/-! ### Growth does not change what an instruction will find -/

theorem Grows.param {s t : State} {n : Nat} (h : Grows s t n) (k : Nat) : t.param k = s.param k := by
  unfold State.param; rw [h.cells, h.ip]

theorem Grows.operand {s t : State} {n : Nat} (h : Grows s t n) (m : Mode) (k : Nat) :
    t.operand m k = s.operand m k := by
  unfold State.operand
  rw [h.param, h.rb]
  split <;> simp [h.cells]

theorem Grows.target {s t : State} {n : Nat} (h : Grows s t n) (m : Mode) (k : Nat) :
    t.target m k = s.target m k := by
  unfold State.target; rw [h.param, h.rb]

theorem Grows.valueAccesses {s t : State} {n : Nat} (h : Grows s t n) (m : Mode) (k : Nat) :
    valueAccesses m k t = valueAccesses m k s := by
  unfold Machine.valueAccesses; rw [h.param, h.rb, h.ip]

theorem Grows.writeAccesses {s t : State} {n : Nat} (h : Grows s t n) (m : Mode) (k : Nat) :
    writeAccesses m k t = writeAccesses m k s := by
  unfold Machine.writeAccesses; rw [h.param, h.rb, h.ip]

/-! ### The resolver -/

/-- `ResolveValue(k)`, all cases (rule R115): it grows as its accesses say, and gives the operand or the first
stop of its accesses. -/
theorem resolveValue_eq (m : Mode) (k : Nat) (s : State) :
    ∃ t, Grows s t (walk s.cfg s.len (valueAccesses m k s)).2 ∧
      resolveValue m k s = match (walk s.cfg s.len (valueAccesses m k s)).1 with
        | some x => .stop x t
        | none => .ok (s.operand m k) t := by
  unfold resolveValue paramRead
  rw [memRead_eq]
  cases h : addressStop s.cfg ((s.ip + k : Nat) : Int) with
  | some x =>
    have hw : walk s.cfg s.len (valueAccesses m k s) = (some x, s.len) := walk_cons_stop h _ _
    rw [hw]
    exact ⟨s, Grows.refl s, rfl⟩
  | none =>
    have hb := addressStop_eq_none.1 h
    have hg := grows_touch (s := s) (a := s.ip + k) (by omega)
    simp only [Res.bind, Int.toNat_natCast, State.touch_rb]
    change ∃ t, _ ∧ (match valueAddress m s.rb (s.param k) with
      | none => Res.ok (s.param k) (s.touch (s.ip + k))
      | some a => memRead a (s.touch (s.ip + k))) = _
    cases ha : valueAddress m s.rb (s.param k) with
    | none =>
      have hw : walk s.cfg s.len (valueAccesses m k s) = (none, touchLen s.cfg s.len (s.ip + k)) := by
        unfold valueAccesses; rw [ha, walk_cons_ok h]
        simp only [if_true, Int.toNat_natCast]; rfl
      have ho : s.operand m k = s.param k := by unfold State.operand; rw [ha]
      rw [hw, ho]
      exact ⟨_, hg, rfl⟩
    | some a =>
      have ho : s.operand m k = s.cell a.toNat := by unfold State.operand; rw [ha]
      simp only [memRead_eq, State.touch_cfg]
      cases h2 : addressStop s.cfg a with
      | some x =>
        have hw : walk s.cfg s.len (valueAccesses m k s) = (some x, touchLen s.cfg s.len (s.ip + k)) := by
          unfold valueAccesses; rw [ha, walk_cons_ok h]
          simp only [if_true, Int.toNat_natCast]
          exact walk_cons_stop h2 _ _
        rw [hw]
        exact ⟨_, hg, rfl⟩
      | none =>
        have hb2 := addressStop_eq_none.1 h2
        have hw : walk s.cfg s.len (valueAccesses m k s) =
            (none, touchLen s.cfg (touchLen s.cfg s.len (s.ip + k)) a.toNat) := by
          unfold valueAccesses; rw [ha, walk_cons_ok h]
          simp only [if_true, Int.toNat_natCast]
          rw [walk_cons_ok h2]; rfl
        rw [hw, ho]
        have hg2 := grows_touch (s := s.touch (s.ip + k)) (a := a.toNat) (by simp; omega)
        simp only [State.touch_cfg, State.touch_len] at hg2
        exact ⟨_, hg.trans hg2, by simp only [hg.cells]⟩

/-- `ResolveWrite(k)`, all cases (rule R116). -/
theorem resolveWrite_eq (m : Mode) (k : Nat) (s : State) :
    ∃ t, Grows s t (walk s.cfg s.len (writeAccesses m k s)).2 ∧
      resolveWrite m k s = match (walk s.cfg s.len (writeAccesses m k s)).1 with
        | some x => .stop x t
        | none => .ok (s.target m k) t := by
  unfold resolveWrite paramRead
  rw [memRead_eq]
  cases h : addressStop s.cfg ((s.ip + k : Nat) : Int) with
  | some x =>
    have hw : walk s.cfg s.len (writeAccesses m k s) = (some x, s.len) := walk_cons_stop h _ _
    rw [hw]
    exact ⟨s, Grows.refl s, rfl⟩
  | none =>
    have hb := addressStop_eq_none.1 h
    have hg := grows_touch (s := s) (a := s.ip + k) (by omega)
    simp only [Res.bind, Int.toNat_natCast, State.touch_rb, checkAddress_eq, State.touch_cfg]
    change ∃ t, _ ∧ (match addressStop s.cfg (writeAddress m s.rb (s.param k)) with
      | some x => Res.stop x (s.touch (s.ip + k))
      | none => Res.ok (s.target m k) (s.touch (s.ip + k))) = _
    cases h2 : addressStop s.cfg (writeAddress m s.rb (s.param k)) with
    | some x =>
      have hw : walk s.cfg s.len (writeAccesses m k s) = (some x, touchLen s.cfg s.len (s.ip + k)) := by
        unfold writeAccesses; rw [walk_cons_ok h]
        simp only [if_true, Int.toNat_natCast]
        exact walk_cons_stop h2 _ _
      rw [hw]
      exact ⟨_, hg, rfl⟩
    | none =>
      have hw : walk s.cfg s.len (writeAccesses m k s) = (none, touchLen s.cfg s.len (s.ip + k)) := by
        unfold writeAccesses; rw [walk_cons_ok h]
        simp only [if_true, Int.toNat_natCast]
        rw [walk_cons_ok h2]; rfl
      rw [hw]
      exact ⟨_, hg, rfl⟩

/-- A write target that passed its check lies below the capacity. -/
theorem target_lt_cap {s : State} {m : Mode} {k : Nat} {c : Config} {len : Nat}
    (h : (walk c len (writeAccesses m k s)).1 = none) :
    ((s.target m k : Nat) : Int) = writeAddress m s.rb (s.param k) ∧ s.target m k < c.tapeCap := by
  have := walk_eq_none.1 h { addr := writeAddress m s.rb (s.param k), grows := false } (by simp [writeAccesses])
  simp only at this
  unfold State.target
  omega

/-! ### Two resolutions in a row -/

/-- Two value parameters in a row, all cases. -/
theorem resolve_two_values (m1 m2 : Mode) (j k : Nat) (s : State) :
    ∃ t, Grows s t (walk s.cfg s.len (valueAccesses m1 j s ++ valueAccesses m2 k s)).2 ∧
      ∀ {β : Type} (f : Cell → Cell → State → Res β),
        ((resolveValue m1 j s).bind fun a s => (resolveValue m2 k s).bind fun b s => f a b s) =
          match (walk s.cfg s.len (valueAccesses m1 j s ++ valueAccesses m2 k s)).1 with
            | some x => .stop x t
            | none => f (s.operand m1 j) (s.operand m2 k) t := by
  obtain ⟨t1, g1, e1⟩ := resolveValue_eq m1 j s
  obtain ⟨t2, g2, e2⟩ := resolveValue_eq m2 k t1
  rw [g1.valueAccesses, g1.cfg, g1.len] at g2 e2
  rw [walk_append]
  rcases hw : walk s.cfg s.len (valueAccesses m1 j s) with ⟨st, n⟩
  rw [hw] at g1 e1 g2 e2
  cases st with
  | some x =>
    refine ⟨t1, g1, fun f => ?_⟩
    rw [e1]; rfl
  | none =>
    refine ⟨t2, g1.trans g2, fun f => ?_⟩
    rw [e1]
    simp only [Res.bind, e2]
    cases (walk s.cfg n (valueAccesses m2 k s)).1 with
    | some x => rfl
    | none => simp only [g1.operand]

/-! ### The shared instruction forms -/

/-- ADD, MUL, LT and EQ, all cases: the first stop of the accesses, else the ALU's overflow, else the one write and
the advance of `ip`. -/
theorem storeResult_eq (op : Nat) (alu : Cell → Cell → Option Cell) (m1 m2 m3 : Mode) (s : State) :
    ∃ t, Grows s t (walk s.cfg s.len (storeAccesses m1 m2 m3 s)).2 ∧
      storeResult op alu m1 m2 m3 s = match (walk s.cfg s.len (storeAccesses m1 m2 m3 s)).1 with
        | some x => .stop x t
        | none => match alu (s.operand m1 1) (s.operand m2 2) with
          | none => .stop { reason := .overflow, info := op } t
          | some r => .ok () (((t.touch (s.target m3 3)).store (s.target m3 3) r).setIp (s.ip + 4)) := by
  obtain ⟨t2, g2, e2⟩ := resolve_two_values m1 m2 1 2 s
  obtain ⟨t3, g3, e3⟩ := resolveWrite_eq m3 3 t2
  rw [g2.writeAccesses, g2.cfg, g2.len] at g3 e3
  unfold storeResult storeAccesses
  rw [walk_append, e2]
  rcases hw : walk s.cfg s.len (valueAccesses m1 1 s ++ valueAccesses m2 2 s) with ⟨st, n⟩
  rw [hw] at g2 g3 e3
  cases st with
  | some x => exact ⟨t2, g2, rfl⟩
  | none =>
    refine ⟨t3, g2.trans g3, ?_⟩
    simp only [e3]
    cases hx : (walk s.cfg n (writeAccesses m3 3 s)).1 with
    | some x => rfl
    | none =>
      have hd := (target_lt_cap hx).2
      simp only [Res.bind, g2.target]
      cases alu (s.operand m1 1) (s.operand m2 2) with
      | none => rfl
      | some r =>
        have hn : addressStop t3.cfg ((s.target m3 3 : Nat) : Int) = none :=
          addressStop_eq_none.2 (by rw [(g2.trans g3).cfg]; omega)
        simp only [orOverflow, memWrite_eq, hn, Int.toNat_natCast, State.store_ip, State.touch_ip,
          (g2.trans g3).ip]

/-- JT and JF, all cases: the first stop of the accesses, else the test, a taken jump to a negative target being a
stop. -/
theorem jumpWhen_eq (test : Cell → Bool) (m1 m2 : Mode) (s : State) :
    ∃ t, Grows s t (walk s.cfg s.len (jumpAccesses m1 m2 s)).2 ∧
      jumpWhen test m1 m2 s = match (walk s.cfg s.len (jumpAccesses m1 m2 s)).1 with
        | some x => .stop x t
        | none =>
          if test (s.operand m1 1) = true then
            if (s.operand m2 2).toInt < 0 then
              .stop { reason := .negativeAddress, info := (s.operand m2 2).toInt } t
            else .ok () (t.setIp (s.operand m2 2).toInt.toNat)
          else .ok () (t.setIp (s.ip + 3)) := by
  obtain ⟨t, g, e⟩ := resolve_two_values m1 m2 1 2 s
  refine ⟨t, g, ?_⟩
  unfold jumpWhen jumpAccesses
  rw [e, g.ip]

end Sys2Proof.Machine
end

