-- ==== Sys2Proof/Laws/Exec.lean ====
section
/-! SUPPORT. What an instruction can do, said once (`exec_cases`), and what a step is. -/

namespace Sys2Proof.Machine

/-! ### The stops -/

/-- What a stop of an instruction run in `s` looks like: never Running or NotStarted, the info in its 65 bits, and the
info 0 unless the stop is terminal (rules R27, R301). -/
structure ProperStop (s : State) (x : Status) : Prop where
  reason : x.reason ≠ .running ∧ x.reason ≠ .notStarted
  range : s.ip < 2 ^ 63 → -2 ^ 64 ≤ x.info ∧ x.info < 2 ^ 64
  zero : x.reason.terminal = false → x.info = 0

theorem cell_toInt_bounds (c : Cell) : -2 ^ 63 ≤ c.toInt ∧ c.toInt < 2 ^ 63 := by
  have h1 := BitVec.toInt_lt (x := c)
  have h2 := BitVec.le_toInt (x := c)
  omega

/-- A terminal stop within range is proper, and is no InputEmpty. -/
theorem ProperStop.of_terminal {s : State} {x : Status} (ht : x.reason.terminal = true)
    (hr : s.ip < 2 ^ 63 → -2 ^ 64 ≤ x.info ∧ x.info < 2 ^ 64) : ProperStop s x := by
  refine ⟨⟨fun h => ?_, fun h => ?_⟩, hr, fun h => ?_⟩ <;> rw [h] at ht <;> cases ht

theorem not_inputEmpty_of_terminal {r : StopReason} (ht : r.terminal = true) : r ≠ .inputEmpty := by
  intro h; rw [h] at ht; cases ht

/-- The stop of an address records it and is terminal (rules R52, R301). -/
theorem addressStop_terminal {c : Config} {a : Int} {x : Status} (h : addressStop c a = some x) :
    x.info = a ∧ x.reason.terminal = true := by
  unfold addressStop at h
  split at h
  · cases h; exact ⟨rfl, rfl⟩
  · split at h
    · cases h; exact ⟨rfl, rfl⟩
    · cases h

/-- The stop of a walk is the stop of one of its addresses. -/
theorem walk_stop {c : Config} {len : Nat} {xs : List Access} {x : Status} (h : (walk c len xs).1 = some x) :
    ∃ y ∈ xs, addressStop c y.addr = some x := by
  induction xs generalizing len with
  | nil => cases h
  | cons y ys ih =>
    cases hy : addressStop c y.addr with
    | some st =>
      rw [walk_cons_stop hy] at h
      exact ⟨y, by simp, by rw [hy, ← h]⟩
    | none =>
      rw [walk_cons_ok hy] at h
      obtain ⟨z, hz, e⟩ := ih h
      exact ⟨z, by simp [hz], e⟩

/-- Every address an instruction's parameters can give lies in the 65 bits of `info` (rule R117). -/
theorem valueAccesses_bounds {m : Mode} {k : Nat} {s : State} {y : Access} (hk : k ≤ 3)
    (h : y ∈ valueAccesses m k s) (hip : s.ip < 2 ^ 63) : -2 ^ 64 ≤ y.addr ∧ y.addr < 2 ^ 64 := by
  have h1 := cell_toInt_bounds (s.param k)
  have h2 := cell_toInt_bounds s.rb
  unfold valueAccesses valueAddress at h
  cases m <;> simp at h <;> rcases h with rfl | rfl <;> simp only <;> omega

theorem writeAccesses_bounds {m : Mode} {k : Nat} {s : State} {y : Access} (hk : k ≤ 3)
    (h : y ∈ writeAccesses m k s) (hip : s.ip < 2 ^ 63) : -2 ^ 64 ≤ y.addr ∧ y.addr < 2 ^ 64 := by
  have h1 := cell_toInt_bounds (s.param k)
  have h2 := cell_toInt_bounds s.rb
  unfold writeAccesses writeAddress at h
  cases m <;> simp at h <;> rcases h with rfl | rfl <;> simp only <;> omega

theorem walk_proper {s : State} {len : Nat} {xs : List Access} {x : Status}
    (hb : ∀ y ∈ xs, s.ip < 2 ^ 63 → -2 ^ 64 ≤ y.addr ∧ y.addr < 2 ^ 64)
    (h : (walk s.cfg len xs).1 = some x) :
    x.reason.terminal = true ∧ (s.ip < 2 ^ 63 → -2 ^ 64 ≤ x.info ∧ x.info < 2 ^ 64) := by
  obtain ⟨y, hy, e⟩ := walk_stop h
  have hp := addressStop_terminal e
  exact ⟨hp.2, fun hip => by rw [hp.1]; exact hb y hy hip⟩

/-! ### The inversion of `exec` -/

/-- The five ways an instruction run in `s` can complete, from the grown state `g` (rules R113, R119). -/
inductive Completes (i : Instr) (s g : State) : State → Prop where
  /-- ADD, MUL, LT, EQ. -/
  | store (d : Nat) (r : Cell) (hi : i.opcode ∈ [1, 2, 7, 8]) (hn : i.nparam = 3) (hd : d < s.cfg.tapeCap)
      (hip : s.ip + 3 < s.cfg.tapeCap) : Completes i s g (((g.touch d).store d r).setIp (s.ip + 4))
  /-- IN. -/
  | input (d : Nat) (v : Cell) (rest : List Cell) (hi : i.opcode = 3) (hn : i.nparam = 1) (hq : s.inq = v :: rest)
      (hd : d < s.cfg.tapeCap) (hip : s.ip + 1 < s.cfg.tapeCap) :
      Completes i s g ((((g.setInq rest).touch d).store d v).setIp (s.ip + 2))
  /-- OUT. -/
  | output (v : Cell) (hi : i.opcode = 4) (hn : i.nparam = 1) (hip : s.ip + 1 < s.cfg.tapeCap) :
      Completes i s g ((g.appendOut v).setIp (s.ip + 2))
  /-- JT, JF, taken. -/
  | jump (m1 m2 : Mode) (x3 : Nat)
      (hi : (i = .jt m1 m2 x3 ∧ (s.operand m1 1).toInt ≠ 0) ∨ (i = .jf m1 m2 x3 ∧ (s.operand m1 1).toInt = 0))
      (ht : 0 ≤ (s.operand m2 2).toInt) : Completes i s g (g.setIp (s.operand m2 2).toInt.toNat)
  /-- JT, JF, not taken. -/
  | fall (hi : i.opcode ∈ [5, 6]) (hn : i.nparam = 2) (hip : s.ip + 2 < s.cfg.tapeCap) :
      Completes i s g (g.setIp (s.ip + 3))
  /-- ARB. -/
  | base (v : Cell) (hi : i.opcode = 9) (hn : i.nparam = 1) (hip : s.ip + 1 < s.cfg.tapeCap) :
      Completes i s g ((g.setRb v).setIp (s.ip + 2))

/-- An instruction stops or completes, after growing the tape and doing nothing else; an InputEmpty stop comes before
any growth, and only with the queue empty. -/
def ExecCases (i : Instr) (s t : State) : Prop :=
  ∃ g n, Grows s g n ∧ s.len ≤ n ∧ (s.len ≤ s.cfg.tapeCap → n ≤ s.cfg.tapeCap) ∧
    ((∃ x, ProperStop s x ∧ (x.reason = .inputEmpty → g = s ∧ s.inq = [] ∧ i.opcode = 3) ∧ t = g.raise x) ∨
      Completes i s g t)

theorem passes_lt {s : State} {len : Nat} {xs : List Access} {y : Access}
    (h : (walk s.cfg len xs).1 = none) (hy : y ∈ xs) : 0 ≤ y.addr ∧ y.addr < (s.cfg.tapeCap : Int) :=
  walk_eq_none.1 h y hy

/-- The case of a terminal stop. -/
theorem stop_case {i : Instr} {s g : State} {x : Status} (ht : x.reason.terminal = true)
    (hr : s.ip < 2 ^ 63 → -2 ^ 64 ≤ x.info ∧ x.info < 2 ^ 64) :
    (∃ y, ProperStop s y ∧ (y.reason = .inputEmpty → g = s ∧ s.inq = [] ∧ i.opcode = 3) ∧ g.raise x = g.raise y) ∨
      Completes i s g (g.raise x) :=
  .inl ⟨x, .of_terminal ht hr, fun h => absurd h (not_inputEmpty_of_terminal ht), rfl⟩

theorem storeResult_cases (i : Instr) (op : Nat) (alu : Cell → Cell → Option Cell) (m1 m2 m3 : Mode)
    {s t : State} (hi : i.opcode ∈ [1, 2, 7, 8]) (hn : i.nparam = 3) (hop : op ≤ 99)
    (h : (storeResult op alu m1 m2 m3 s).outcome = .next t) : ExecCases i s t := by
  obtain ⟨g, hg, e⟩ := storeResult_eq op alu m1 m2 m3 s
  refine ⟨g, _, hg, le_walk _ _ _, fun hl => walk_le_cap hl _, ?_⟩
  have hb : ∀ y ∈ storeAccesses m1 m2 m3 s, s.ip < 2 ^ 63 → -2 ^ 64 ≤ y.addr ∧ y.addr < 2 ^ 64 := by
    intro y hy hip
    rcases List.mem_append.1 hy with hy | hy
    · rcases List.mem_append.1 hy with hy | hy
      · exact valueAccesses_bounds (by omega) hy hip
      · exact valueAccesses_bounds (by omega) hy hip
    · exact writeAccesses_bounds (by omega) hy hip
  cases hw : (walk s.cfg s.len (storeAccesses m1 m2 m3 s)).1 with
  | some x =>
    rw [e, hw] at h; cases h
    have hp := walk_proper hb hw
    exact stop_case hp.1 hp.2
  | none =>
    rw [e, hw] at h
    cases ha : alu (s.operand m1 1) (s.operand m2 2) with
    | none =>
      simp only [ha] at h; cases h
      exact stop_case rfl fun _ => by simp only; omega
    | some r =>
      simp only [ha] at h; cases h
      have h1 := passes_lt hw (y := { addr := ((s.ip + 3 : Nat) : Int), grows := true })
        (by simp [storeAccesses, writeAccesses])
      have h2 := passes_lt hw (y := { addr := writeAddress m3 s.rb (s.param 3), grows := false })
        (by simp [storeAccesses, writeAccesses])
      simp only at h1 h2
      refine .inr (.store _ r hi hn ?_ (by omega))
      unfold State.target; omega

theorem jumpWhen_cases (i : Instr) (test : Cell → Bool) (m1 m2 : Mode) (x3 : Nat) {s t : State}
    (hi : i.opcode ∈ [5, 6]) (hn : i.nparam = 2)
    (hj : test (s.operand m1 1) = true →
      (i = .jt m1 m2 x3 ∧ (s.operand m1 1).toInt ≠ 0) ∨ (i = .jf m1 m2 x3 ∧ (s.operand m1 1).toInt = 0))
    (h : (jumpWhen test m1 m2 s).outcome = .next t) : ExecCases i s t := by
  obtain ⟨g, hg, e⟩ := jumpWhen_eq test m1 m2 s
  refine ⟨g, _, hg, le_walk _ _ _, fun hl => walk_le_cap hl _, ?_⟩
  have hb : ∀ y ∈ jumpAccesses m1 m2 s, s.ip < 2 ^ 63 → -2 ^ 64 ≤ y.addr ∧ y.addr < 2 ^ 64 := by
    intro y hy hip
    rcases List.mem_append.1 hy with hy | hy
    · exact valueAccesses_bounds (by omega) hy hip
    · exact valueAccesses_bounds (by omega) hy hip
  cases hw : (walk s.cfg s.len (jumpAccesses m1 m2 s)).1 with
  | some x =>
    rw [e, hw] at h; cases h
    have hp := walk_proper hb hw
    exact stop_case hp.1 hp.2
  | none =>
    rw [e, hw] at h
    have h1 := passes_lt hw (y := { addr := ((s.ip + 2 : Nat) : Int), grows := true })
      (by simp [jumpAccesses, valueAccesses])
    simp only at h1
    cases ht : test (s.operand m1 1) with
    | true =>
      by_cases hneg : (s.operand m2 2).toInt < 0
      · simp only [ht, hneg, if_true] at h; cases h
        have hr := cell_toInt_bounds (s.operand m2 2)
        exact stop_case rfl fun _ => by simp only; omega
      · simp only [ht, hneg, if_true, if_false] at h; cases h
        exact .inr (.jump m1 m2 x3 (hj ht) (by omega))
    | false =>
      simp only [ht] at h; cases h
      exact .inr (.fall hi hn (by omega))

theorem aluNonzero_eq_true (a : Cell) : aluNonzero a = true ↔ a.toInt ≠ 0 := by
  have : a.toInt = 0 ↔ a = 0 := by rw [← BitVec.toInt_inj]; simp
  simp [aluNonzero, this]

theorem aluZero_eq_true (a : Cell) : aluZero a = true ↔ a.toInt = 0 := by
  have : a.toInt = 0 ↔ a = 0 := by rw [← BitVec.toInt_inj]; simp
  simp [aluZero, this]

theorem execIn_cases (m1 : Mode) (x2 x3 : Nat) {s t : State} (h : execIn m1 s = .next t) :
    ExecCases (.inp m1 x2 x3) s t := by
  unfold execIn at h
  cases hq : s.inq with
  | nil =>
    rw [hq] at h; cases h
    exact ⟨s, _, Grows.refl s, le_rfl, id,
      .inl ⟨{ reason := .inputEmpty, info := 0 }, ⟨by decide, fun _ => by decide, fun _ => rfl⟩, fun _ => ⟨rfl, hq, rfl⟩, rfl⟩⟩
  | cons v rest =>
    rw [hq] at h; simp only at h
    obtain ⟨g, hg, e⟩ := resolveWrite_eq m1 1 s
    refine ⟨g, _, hg, le_walk _ _ _, fun hl => walk_le_cap hl _, ?_⟩
    cases hw : (walk s.cfg s.len (writeAccesses m1 1 s)).1 with
    | some x =>
      rw [e, hw] at h; cases h
      have hp := walk_proper (fun y hy hip => writeAccesses_bounds (by omega) hy hip) hw
      exact stop_case hp.1 hp.2
    | none =>
      have hd := (target_lt_cap hw).2
      have hn : addressStop (g.setInq rest).cfg ((s.target m1 1 : Nat) : Int) = none :=
        addressStop_eq_none.2 (by rw [State.setInq_cfg, hg.cfg]; omega)
      have h1 := passes_lt hw (y := { addr := ((s.ip + 1 : Nat) : Int), grows := true }) (by simp [writeAccesses])
      simp only at h1
      rw [e, hw] at h
      simp only [Res.bind, memWrite_eq, hn, Int.toNat_natCast, Res.outcome, State.store_ip, State.touch_ip,
        State.setInq_ip, hg.ip] at h
      cases h
      exact .inr (.input _ v rest rfl rfl hq hd (by omega))

theorem execOut_cases (m1 : Mode) (x2 x3 : Nat) {s t : State} (h : execOut m1 s = .next t) :
    ExecCases (.out m1 x2 x3) s t := by
  unfold execOut at h
  obtain ⟨g, hg, e⟩ := resolveValue_eq m1 1 s
  refine ⟨g, _, hg, le_walk _ _ _, fun hl => walk_le_cap hl _, ?_⟩
  cases hw : (walk s.cfg s.len (valueAccesses m1 1 s)).1 with
  | some x =>
    rw [e, hw] at h; cases h
    have hp := walk_proper (fun y hy hip => valueAccesses_bounds (by omega) hy hip) hw
    exact stop_case hp.1 hp.2
  | none =>
    have h1 := passes_lt hw (y := { addr := ((s.ip + 1 : Nat) : Int), grows := true }) (by simp [valueAccesses])
    simp only at h1
    rw [e, hw] at h
    simp only [Res.bind, Res.outcome, hg.ip] at h
    cases h
    exact .inr (.output _ rfl rfl (by omega))

theorem execArb_cases (m1 : Mode) (x2 x3 : Nat) {s t : State} (h : execArb m1 s = .next t) :
    ExecCases (.arb m1 x2 x3) s t := by
  unfold execArb at h
  obtain ⟨g, hg, e⟩ := resolveValue_eq m1 1 s
  refine ⟨g, _, hg, le_walk _ _ _, fun hl => walk_le_cap hl _, ?_⟩
  cases hw : (walk s.cfg s.len (valueAccesses m1 1 s)).1 with
  | some x =>
    rw [e, hw] at h; cases h
    have hp := walk_proper (fun y hy hip => valueAccesses_bounds (by omega) hy hip) hw
    exact stop_case hp.1 hp.2
  | none =>
    have h1 := passes_lt hw (y := { addr := ((s.ip + 1 : Nat) : Int), grows := true }) (by simp [valueAccesses])
    simp only at h1
    rw [e, hw] at h
    simp only [Res.bind] at h
    cases ha : aluAdd g.rb (s.operand m1 1) with
    | none =>
      simp only [ha, orOverflow] at h; cases h
      exact stop_case rfl fun _ => by simp only; omega
    | some r =>
      simp only [ha, orOverflow, Res.outcome, hg.ip] at h; cases h
      exact .inr (.base r rfl rfl (by omega))

/-- What any instruction can do when it answers a next state. -/
theorem exec_cases {i : Instr} {s t : State} (h : exec i s = .next t) : ExecCases i s t := by
  cases i with
  | add m1 m2 m3 => exact storeResult_cases _ 1 aluAdd m1 m2 m3 (by simp [Instr.opcode]) rfl (by omega) h
  | mul m1 m2 m3 => exact storeResult_cases _ 2 aluMul m1 m2 m3 (by simp [Instr.opcode]) rfl (by omega) h
  | lt m1 m2 m3 => exact storeResult_cases _ 7 aluLt m1 m2 m3 (by simp [Instr.opcode]) rfl (by omega) h
  | eq m1 m2 m3 => exact storeResult_cases _ 8 aluEq m1 m2 m3 (by simp [Instr.opcode]) rfl (by omega) h
  | inp m1 x2 x3 => exact execIn_cases m1 x2 x3 h
  | out m1 x2 x3 => exact execOut_cases m1 x2 x3 h
  | arb m1 x2 x3 => exact execArb_cases m1 x2 x3 h
  | jt m1 m2 x3 =>
    exact jumpWhen_cases _ aluNonzero m1 m2 x3 (by simp [Instr.opcode]) rfl
      (fun ht => .inl ⟨rfl, (aluNonzero_eq_true _).1 ht⟩) h
  | jf m1 m2 x3 =>
    exact jumpWhen_cases _ aluZero m1 m2 x3 (by simp [Instr.opcode]) rfl
      (fun ht => .inr ⟨rfl, (aluZero_eq_true _).1 ht⟩) h
  | hlt x1 x2 x3 =>
    cases h
    exact ⟨s, _, Grows.refl s, le_rfl, id, stop_case rfl fun _ => by simp only; omega⟩

/-! ### The step -/

/-- A step of a running core, all cases (rule R111). -/
theorem step_of_running {s : State} (h : s.status.reason = .running) :
    step s =
      if s.len ≤ s.ip then .next (s.raise { reason := .exhausted, info := s.ip })
      else match decode (s.cell s.ip) with
        | .ok i => exec i s
        | .error r => .next (s.raise (Reject.status r)) := by
  unfold step; rw [if_pos h, fetchInstr_eq]
  by_cases hl : s.len ≤ s.ip
  · rw [if_pos hl, if_pos hl]
  · rw [if_neg hl, if_neg hl]
    cases decode (s.cell s.ip) <;> rfl

/-- The stop of a cell that is no instruction is a proper stop. -/
theorem decode_error_proper {s : State} {c : Cell} {r : Reject} (h : decode c = .error r) :
    (Reject.status r).reason.terminal = true ∧
      (s.ip < 2 ^ 63 → -2 ^ 64 ≤ (Reject.status r).info ∧ (Reject.status r).info < 2 ^ 64) := by
  have hc := cell_toInt_bounds c
  have key : r = .notDecimal c.toInt ∨ r = .illegalMode c.toInt ∨ ∃ op, op < 100 ∧ r = .unknownOpcode op := by
    unfold decode at h
    cases hf : decodeFields c with
    | none => rw [hf] at h; cases h; exact .inl rfl
    | some f =>
      rw [hf] at h; simp only at h
      have hop : f.op < 100 := by
        unfold decodeFields at hf
        split at hf
        · cases hf
        · cases hf; exact Nat.mod_lt _ (by omega)
      have hm : ∀ (d : Nat) (k : Mode → Except Reject Instr), withMode c.toInt d k = .error r →
          r = .illegalMode c.toInt ∨ ∃ m, k m = .error r := by
        intro d k hk
        unfold withMode at hk
        split at hk
        · exact .inr ⟨_, hk⟩
        · cases hk; exact .inl rfl
      have h1 : ∀ k, withModes1 c.toInt f k = .error r → r = .illegalMode c.toInt := by
        intro k hk
        rcases hm _ _ hk with e | ⟨_, e⟩
        · exact e
        · cases e
      have h2 : ∀ k, withModes2 c.toInt f k = .error r → r = .illegalMode c.toInt := by
        intro k hk
        rcases hm _ _ hk with e | ⟨_, e⟩
        · exact e
        · rcases hm _ _ e with e | ⟨_, e⟩
          · exact e
          · cases e
      have h3 : ∀ k, withModes3 c.toInt f k = .error r → r = .illegalMode c.toInt := by
        intro k hk
        rcases hm _ _ hk with e | ⟨_, e⟩
        · exact e
        · rcases hm _ _ e with e | ⟨_, e⟩
          · exact e
          · rcases hm _ _ e with e | ⟨_, e⟩
            · exact e
            · cases e
      unfold classify at h
      split at h
      · cases h
      iterate 2 (split at h; · exact .inr (.inl (h3 _ h)))
      iterate 2 (split at h; · exact .inr (.inl (h1 _ h)))
      iterate 2 (split at h; · exact .inr (.inl (h2 _ h)))
      iterate 2 (split at h; · exact .inr (.inl (h3 _ h)))
      split at h
      · exact .inr (.inl (h1 _ h))
      · cases h; exact .inr (.inr ⟨_, hop, rfl⟩)
  rcases key with rfl | rfl | ⟨op, hop, rfl⟩
  · exact ⟨rfl, fun _ => by simp only [Reject.status]; omega⟩
  · exact ⟨rfl, fun _ => by simp only [Reject.status]; omega⟩
  · exact ⟨rfl, fun _ => by simp only [Reject.status]; omega⟩

/-- What a step of a running core can do: a stop of the prologue, or the instruction at `ip` (rule R111). -/
theorem step_cases_running {s t : State} (hr : s.status.reason = .running) (h : step s = .next t) :
    (∃ x, x.reason.terminal = true ∧ (s.ip < 2 ^ 63 → -2 ^ 64 ≤ x.info ∧ x.info < 2 ^ 64) ∧ t = s.raise x) ∨
      ∃ i, s.ip < s.len ∧ decode (s.cell s.ip) = .ok i ∧ exec i s = .next t := by
  rw [step_of_running hr] at h
  split at h
  · cases h; exact .inl ⟨_, rfl, fun _ => by simp only; omega, rfl⟩
  · cases hd : decode (s.cell s.ip) with
    | ok i => rw [hd] at h; exact .inr ⟨i, by omega, rfl, h⟩
    | error r =>
      rw [hd] at h; cases h
      have hp := decode_error_proper (s := s) hd
      exact .inl ⟨_, hp.1, hp.2, rfl⟩

theorem step_of_not_running {s : State} (h : s.status.reason ≠ .running) : step s = hostStep s := by
  unfold step; rw [if_neg h]

end Sys2Proof.Machine
end

