-- ==== Sys2Proof/Laws/PerInstr.lean ====
section
/-! SUPPORT. The family `OpcodeField`: the two low digits of an instruction's encoding are its opcode, and a
well-formed instruction's encoding has five digits (rules R80, R81, R86, R88). -/

namespace Sys2Proof.Laws.OpcodeField

/-- What the family says of an instruction. -/
def Statement (i : Instr) : Prop :=
  encodeNat i % 100 = i.opcode ∧ (i.wellFormed = true → encodeNat i ≤ 99999)

/-- A mode's digit is a digit. -/
theorem digit_le (m : Mode) : m.digit ≤ 9 := by cases m <;> decide

/-- The opcode of a five-digit number is its two low digits (rule R81). -/
theorem low_digits {op : Nat} (h : op < 100) (a b c : Nat) : (op + 100 * a + 1000 * b + 10000 * c) % 100 = op := by
  omega

/-- An opcode and three digits make at most five digits. -/
theorem five_digits {op a b c : Nat} (h : op < 100) (ha : a ≤ 9) (hb : b ≤ 9) (hc : c ≤ 9) :
    op + 100 * a + 1000 * b + 10000 * c ≤ 99999 := by
  omega

theorem isDigit_le {x : Nat} (h : isDigit x = true) : x ≤ 9 := of_decide_eq_true h

theorem add (m1 m2 m3 : Mode) : Statement (.add m1 m2 m3) :=
  ⟨low_digits (by decide) _ _ _, fun _ => five_digits (by decide) (digit_le _) (digit_le _) (digit_le _)⟩

theorem mul (m1 m2 m3 : Mode) : Statement (.mul m1 m2 m3) :=
  ⟨low_digits (by decide) _ _ _, fun _ => five_digits (by decide) (digit_le _) (digit_le _) (digit_le _)⟩

theorem lt (m1 m2 m3 : Mode) : Statement (.lt m1 m2 m3) :=
  ⟨low_digits (by decide) _ _ _, fun _ => five_digits (by decide) (digit_le _) (digit_le _) (digit_le _)⟩

theorem eq (m1 m2 m3 : Mode) : Statement (.eq m1 m2 m3) :=
  ⟨low_digits (by decide) _ _ _, fun _ => five_digits (by decide) (digit_le _) (digit_le _) (digit_le _)⟩

theorem inp (m1 : Mode) (x2 x3 : Nat) : Statement (.inp m1 x2 x3) :=
  ⟨low_digits (by decide) _ _ _, fun h =>
    have h := Bool.and_eq_true_iff.1 h
    five_digits (by decide) (digit_le _) (isDigit_le h.1) (isDigit_le h.2)⟩

theorem out (m1 : Mode) (x2 x3 : Nat) : Statement (.out m1 x2 x3) :=
  ⟨low_digits (by decide) _ _ _, fun h =>
    have h := Bool.and_eq_true_iff.1 h
    five_digits (by decide) (digit_le _) (isDigit_le h.1) (isDigit_le h.2)⟩

theorem arb (m1 : Mode) (x2 x3 : Nat) : Statement (.arb m1 x2 x3) :=
  ⟨low_digits (by decide) _ _ _, fun h =>
    have h := Bool.and_eq_true_iff.1 h
    five_digits (by decide) (digit_le _) (isDigit_le h.1) (isDigit_le h.2)⟩

theorem jt (m1 m2 : Mode) (x3 : Nat) : Statement (.jt m1 m2 x3) :=
  ⟨low_digits (by decide) _ _ _, fun h => five_digits (by decide) (digit_le _) (digit_le _) (isDigit_le h)⟩

theorem jf (m1 m2 : Mode) (x3 : Nat) : Statement (.jf m1 m2 x3) :=
  ⟨low_digits (by decide) _ _ _, fun h => five_digits (by decide) (digit_le _) (digit_le _) (isDigit_le h)⟩

theorem hlt (x1 x2 x3 : Nat) : Statement (.hlt x1 x2 x3) :=
  ⟨low_digits (by decide) _ _ _, fun h =>
    have h := Bool.and_eq_true_iff.1 h
    have h1 := Bool.and_eq_true_iff.1 h.1
    five_digits (by decide) (isDigit_le h1.1) (isDigit_le h1.2) (isDigit_le h.2)⟩

end Sys2Proof.Laws.OpcodeField
end

