-- ==== Sys2Proof/Laws/Run.lean ====
section
/-! SUPPORT. Runs of several steps, one step at a time, and the host's turn. -/

namespace Sys2Proof.Machine

theorem runFor_zero (s : State) : runFor 0 s = .next s := rfl

theorem runFor_of_next {s t : State} (h : step s = .next t) (n : Nat) : runFor (n + 1) s = runFor n t := by
  have h' : Host.Core.step Sys2Proof.core s = .next t := h
  simp only [runFor, Host.Core.run, h']; rfl

theorem runFor_of_fault {s : State} {r : Fault} (h : step s = .fault r) (n : Nat) :
    runFor (n + 1) s = .fault r := by
  have h' : Host.Core.step Sys2Proof.core s = .fault r := h
  simp only [runFor, Host.Core.run, h']; rfl

theorem runFor_of_refused {s : State} {r : Refusal} (h : step s = .refused r) (n : Nat) :
    runFor (n + 1) s = .refused r := by
  have h' : Host.Core.step Sys2Proof.core s = .refused r := h
  simp only [runFor, Host.Core.run, h']; rfl

/-- A run that answers a state began with a step that did. -/
theorem runFor_succ_next {n : Nat} {s t : State} (h : runFor (n + 1) s = .next t) :
    ∃ u, step s = .next u ∧ runFor n u = .next t := by
  cases hs : step s with
  | next u => exact ⟨u, rfl, by rw [← runFor_of_next hs]; exact h⟩
  | fault r => rw [runFor_of_fault hs] at h; cases h
  | refused r => rw [runFor_of_refused hs] at h; cases h

/-- What a host action can do: the four cases of rule R124. -/
theorem hostStep_cases {s t : State} (h : hostStep s = .next t) :
    (s.pending = [] ∧ t = s) ∨
    (∃ program rest, s.pending = .load program :: rest ∧ program.length ≤ s.cfg.tapeCap ∧
      t = loaded program { s with pending := rest }) ∨
    (∃ batch rest, s.pending = .run batch :: rest ∧ t = hostRun batch { s with pending := rest }) ∨
    (∃ a v rest, s.pending = .writeCell a v :: rest ∧ a < s.len ∧ t = ({ s with pending := rest } : State).store a v) ∨
    (∃ rest, s.pending = .discardInput :: rest ∧ t = ({ s with pending := rest } : State).setInq []) := by
  unfold hostStep at h
  cases hp : s.pending with
  | nil => rw [hp] at h; cases h; exact .inl ⟨rfl, rfl⟩
  | cons act rest =>
    rw [hp] at h
    cases act with
    | load p =>
      simp only [performHost, hostLoad] at h
      split at h
      · cases h; exact .inr (.inl ⟨p, rest, rfl, by assumption, rfl⟩)
      · cases h
    | run b => cases h; exact .inr (.inr (.inl ⟨b, rest, rfl, rfl⟩))
    | writeCell a v =>
      simp only [performHost, hostWrite] at h
      split at h
      · cases h; exact .inr (.inr (.inr (.inl ⟨a, v, rest, rfl, by assumption, rfl⟩)))
      · cases h
    | discardInput => cases h; exact .inr (.inr (.inr (.inr ⟨rest, rfl, rfl⟩)))

/-- Between runs a host read gives the value. -/
theorem betweenRuns_of_stopped {α : Type} {s : State} (h : s.status.reason ≠ .running) (v : α) :
    betweenRuns s v = some v := if_neg h

/-- While the engine runs a host read gives nothing. -/
theorem betweenRuns_of_running {α : Type} {s : State} (h : s.status.reason = .running) (v : α) :
    betweenRuns s v = none := if_pos h

theorem hostRun_of_startable {s : State} (h : s.status.reason.startable = true) (batch : List Cell) :
    hostRun batch s = { s with inq := s.inq ++ batch, status := { s.status with reason := .running } } := by
  unfold hostRun; rw [if_pos h]

theorem hostRun_of_not_startable {s : State} (h : s.status.reason.startable = false) (batch : List Cell) :
    hostRun batch s = s := by
  unfold hostRun; rw [if_neg (by simp [h])]

end Sys2Proof.Machine
end

