-- ==== Sys2Proof/Tests/Slice0.lean ====
section
/-! SUPPORT. The model's own tests: the WellFormed smoke tests, decoding of cells written out from spec/30_encoding.md
and spec/opcode_table.json, one-step tests whose expected values are the spec's own examples and vectors
(spec/41_arithmetic.md to spec/46_halt.md, spec/95_test_vectors.md), and a witness for the hypotheses of each
statement of Obligations.lean. -/

namespace Sys2Proof.Tests

open Sys2Proof Sys2Proof.Machine

/-! ### Helpers -/

/-- A core with `cells` loaded, stopped before its first run, and the host's actions to come. -/
def fresh (cells : List Cell) (acts : List HostAction) : State := { loaded cells State.reset with pending := acts }

/-- A running core with `cells` as its tape. -/
def running (cells : List Cell) (ip : Nat) (rb : Cell) (inq : List Cell) : State :=
  { loaded cells State.reset with ip := ip, rb := rb, inq := inq, status := { reason := .running, info := 0 } }

/-- A part of the next state, if there is one. -/
def after {α : Type} (f : State → α) : Host.Outcome State Fault Refusal → Option α
  | .next t => some (f t)
  | .fault _ => none
  | .refused _ => none

/-- The status and `ip` at a stop. -/
def stopOf (t : State) : StopReason × Int × Nat := (t.status.reason, t.status.info, t.ip)

/-! ### WellFormed: each check refuses an ill-formed term -/

theorem test_wf_inp_digit2 : (Instr.inp .position 10 0).wellFormed = false := by decide
theorem test_wf_inp_digit3 : (Instr.inp .position 0 10).wellFormed = false := by decide
theorem test_wf_out_digit2 : (Instr.out .position 10 0).wellFormed = false := by decide
theorem test_wf_out_digit3 : (Instr.out .position 0 10).wellFormed = false := by decide
theorem test_wf_jt_digit3 : (Instr.jt .position .position 10).wellFormed = false := by decide
theorem test_wf_jf_digit3 : (Instr.jf .position .position 10).wellFormed = false := by decide
theorem test_wf_arb_digit2 : (Instr.arb .position 10 0).wellFormed = false := by decide
theorem test_wf_arb_digit3 : (Instr.arb .position 0 10).wellFormed = false := by decide
theorem test_wf_hlt_digit1 : (Instr.hlt 10 0 0).wellFormed = false := by decide
theorem test_wf_hlt_digit2 : (Instr.hlt 0 10 0).wellFormed = false := by decide
theorem test_wf_hlt_digit3 : (Instr.hlt 0 0 10).wellFormed = false := by decide
theorem test_wf_digit_nine : (Instr.hlt 9 9 9).wellFormed = true := by decide

/-! ### Decode: a cell for each constructor, its digits written out as `EDCoo` (rules R81, R88) -/

theorem test_decode_add : decode 1201 = .ok (.add .relative .immediate .position) := by decide
theorem test_decode_mul : decode 21002 = .ok (.mul .position .immediate .relative) := by decide
theorem test_decode_inp : decode 203 = .ok (.inp .relative 0 0) := by decide
/-- The spec's own example of an ignored digit (rule R85). -/
theorem test_decode_out : decode 30004 = .ok (.out .position 0 3) := by decide
theorem test_decode_jt : decode 2105 = .ok (.jt .immediate .relative 0) := by decide
theorem test_decode_jf : decode 91206 = .ok (.jf .relative .immediate 9) := by decide
theorem test_decode_lt : decode 10107 = .ok (.lt .immediate .position .immediate) := by decide
theorem test_decode_eq : decode 22008 = .ok (.eq .position .relative .relative) := by decide
theorem test_decode_arb : decode 109 = .ok (.arb .immediate 0 0) := by decide
/-- Halt with ignored digits, in the order of the digits (rule R85). -/
theorem test_decode_hlt : decode 32199 = .ok (.hlt 1 2 3) := by decide

/-- A cell is the least significant 64 bits of the word (log 11), and the word's own length cuts it off. -/
theorem test_decodeTableWord : decodeTableWord 64 109 = some (.arb .immediate 0 0) ∧
    decodeTableWord 128 (2 ^ 64 + 109) = some (.arb .immediate 0 0) ∧ decodeTableWord 64 0 = none := by decide

theorem test_reject_negative : decode (-1) = .error (.notDecimal (-1)) := by decide
theorem test_reject_six_digits : decode 100000 = .error (.notDecimal 100000) := by decide
theorem test_reject_opcode_zero : decode 0 = .error (.unknownOpcode 0) := by decide
theorem test_reject_opcode_ten : decode 10 = .error (.unknownOpcode 10) := by decide
theorem test_reject_opcode_98 : decode 1198 = .error (.unknownOpcode 98) := by decide
theorem test_reject_mode1 : decode 301 = .error (.illegalMode 301) := by decide
theorem test_reject_mode2 : decode 3005 = .error (.illegalMode 3005) := by decide
theorem test_reject_mode3 : decode 90008 = .error (.illegalMode 90008) := by decide

/-! ### Encode -/

/-- The example of rule R91: `ADD 9, #-1, 9`. -/
theorem test_assemble_add : assemble (.add .position .immediate .position) [9, -1, 9] = [1001, 9, -1, 9] := by decide

/-- The listing of scenario S3, the quine. -/
theorem test_assemble_quine : assembleProgram [.arb ⟨.immediate, 1⟩, .out ⟨.relative, -1⟩,
    .add ⟨.position, 100⟩ ⟨.immediate, 1⟩ ⟨.position, 100⟩, .eq ⟨.position, 100⟩ ⟨.immediate, 16⟩ ⟨.position, 101⟩,
    .jf ⟨.position, 101⟩ ⟨.immediate, 0⟩, .hlt]
    = [109, 1, 204, -1, 1001, 100, 1, 100, 1008, 100, 16, 101, 1006, 101, 0, 99] := by decide

/-! ### One step of each instruction -/

/-- The example of rule R150. -/
theorem test_add_example : after (fun t => (t.cell 3, t.ip)) (step (running [1, 9, 10, 3, 2, 3, 11, 0, 99, 30, 40, 50] 0 0 []))
    = some (70, 4) := by decide

/-- Vector ADD-7: 2^63 overflows. -/
theorem test_add_overflow : after stopOf (step (running [1101, 9223372036854775807, 1, 0, 99] 0 0 []))
    = some (.overflow, 1, 0) := by decide

/-- The example of rule R151. -/
theorem test_mul_example : after (fun t => (t.cell 0, t.ip)) (step (running [1, 9, 10, 70, 2, 3, 11, 0, 99, 30, 40, 50] 4 0 []))
    = some (3500, 8) := by decide

/-- Vector MUL-4: (−2^63) × (−1) overflows. -/
theorem test_mul_overflow : after stopOf (step (running [1102, -9223372036854775808, -1, 0, 99] 0 0 []))
    = some (.overflow, 2, 0) := by decide

/-- The example of rule R160. -/
theorem test_in_example : after (fun t => (t.cell 9, t.inq, t.ip)) (step (running [3, 9, 8, 9, 10, 9, 4, 9, 99, -1, 8] 0 0 [8]))
    = some (8, [], 2) := by decide

/-- Vector IN-5: a bad destination leaves the queue unpopped. -/
theorem test_in_bad_target : after (fun t => (stopOf t, t.inq)) (step (running [3, -1, 99] 0 0 [5]))
    = some ((.negativeAddress, -1, 0), [5]) := by decide

/-- Step 2 of scenario S3 (the quine): `OUT @-1` with `rb` = 1 outputs cell 0. -/
theorem test_out_relative : after (fun t => (t.outlog, t.ip)) (step (running [109, 1, 204, -1, 99] 2 1 []))
    = some ([109], 4) := by decide

/-- Vector OUT-5: a read past the end outputs 0 and grows the tape to 13 cells. -/
theorem test_out_grows : after (fun t => (t.outlog, t.len)) (step (running [4, 10, 99] 0 0 [])) = some ([0], 13) := by decide

/-- The example of rule R170. -/
theorem test_jt_example : after (fun t => t.ip) (step (running [1105, 1, 7] 0 0 [])) = some 7 := by decide

/-- Vector JT-10: a jump that is not taken still resolves its target. -/
theorem test_jt_eager : after stopOf (step (running [105, 0, -3, 99] 0 0 [])) = some (.negativeAddress, -3, 0) := by decide

/-- The example of rule R171, on a shorter tape: taken on 0 and not on 1. -/
theorem test_jf_example : after (fun t => t.ip) (step (running [99, 1006, 4, 0, 0] 1 0 [])) = some 0 ∧
    after (fun t => t.ip) (step (running [99, 1006, 4, 0, 1] 1 0 [])) = some 4 := by decide

/-- Rule R171: a negative target is no stop when the operand is not 0, and one when it is. -/
theorem test_jf_negative_target : after stopOf (step (running [1106, 1, -1, 99] 0 0 [])) = some (.running, 0, 3) ∧
    after stopOf (step (running [1106, 0, -1, 99] 0 0 [])) = some (.negativeAddress, -1, 0) := by decide

/-- Vectors LT-4 and LT-5: the comparison is signed. -/
theorem test_lt_signed : after (fun t => (t.cell 0, t.ip)) (step (running [1107, -1, 0, 0, 99] 0 0 [])) = some (1, 4) ∧
    after (fun t => (t.cell 0, t.ip)) (step (running [1107, 0, -1, 0, 99] 0 0 [])) = some (0, 4) := by decide

/-- The example of rule R181: the destination is the first operand's own cell. -/
theorem test_eq_example : after (fun t => (t.cell 9, t.ip)) (step (running [3, 9, 8, 9, 10, 9, 4, 9, 99, 8, 8] 2 0 []))
    = some (1, 6) := by decide

/-- The example of rule R190. -/
theorem test_arb_example : after (fun t => (t.rb, t.ip)) (step (running [109, 1] 0 0 [])) = some (1, 2) := by decide

/-- Rule R190: in mode 2 the operand is found with the old relative base, here the 40 of cell 3. -/
theorem test_arb_old_base : after (fun t => t.rb) (step (running [209, 1, 99, 40] 0 2 [])) = some 42 := by decide

/-- Vector HLT-3: all unused digits 9; the tape does not grow and `ip` stays. -/
theorem test_hlt_digits : after (fun t => (stopOf t, t.len)) (step (running [99999] 0 0 [])) = some ((.finished, 0, 0), 1) := by
  decide

/-- Rule R351: a program of no cells stops with Exhausted at its first fetch. -/
theorem test_empty_program : after stopOf (runFor 2 (fresh [] [.run []])) = some (.exhausted, 0, 0) := by decide

/-- A placed word runs in the very next step, with operands of 0 (log 6). -/
theorem test_withFetchWord : after (fun t => (t.rb, t.ip)) (step (State.reset.withFetchWord 64 109)) = some (0, 2) ∧
    after (fun t => (t.rb, t.ip)) (step (State.reset.withFetchWord 128 (5 * 2 ^ 64 + 109))) = some (5, 2) := by decide

/-- Rules R66, R124: the host reads existing cells only, and none while the engine runs. -/
theorem test_hostRead : hostRead 1 (fresh [7, 8] []) = some 8 ∧ hostRead 2 (fresh [7, 8] []) = none ∧
    hostRead 1 (running [7, 8] 0 0 []) = none := by decide

/-- Rule R37: what the host sees at the stop of vector HLT-6. -/
theorem test_runState : after State.runState (runFor 3 (fresh [104, 1, 99] [.run []]))
    = some (some { ip := 2, rb := 0, outlog := [1], status := { reason := .finished, info := 0 } }) := by decide

/-! ### Witnesses: a state and operands that meet the hypotheses of each statement

One theorem for a statement; its parts are the statement's clauses in order, at the ends of their ranges. -/

theorem test_witness_AddStoresTheExactSum :
    (walk Config.reference 5 (storeAccesses .position .position .position (running [1, -1, 0, 0, 99] 0 0 []))).1
      = some { reason := .negativeAddress, info := -1 } ∧
    (walk Config.reference 4 (storeAccesses .position .position .position (running [1, 4611686018427387904, 0, 0] 0 0 []))).1
      = some { reason := .capacityExceeded, info := 4611686018427387904 } ∧
    (Passes (running [1101, 9223372036854775807, 1, 0] 0 0 [])
        (storeAccesses .immediate .immediate .position (running [1101, 9223372036854775807, 1, 0] 0 0 [])) ∧
      ¬ InI64 (((running [1101, 9223372036854775807, 1, 0] 0 0 []).operand .immediate 1).toInt +
        ((running [1101, 9223372036854775807, 1, 0] 0 0 []).operand .immediate 2).toInt)) ∧
    (Passes (running [1101, 9223372036854775806, 1, 0] 0 0 [])
        (storeAccesses .immediate .immediate .position (running [1101, 9223372036854775806, 1, 0] 0 0 [])) ∧
      InI64 (((running [1101, 9223372036854775806, 1, 0] 0 0 []).operand .immediate 1).toInt +
        ((running [1101, 9223372036854775806, 1, 0] 0 0 []).operand .immediate 2).toInt)) := by
  unfold Passes; decide

theorem test_witness_MulStoresTheExactProduct :
    (walk Config.reference 5 (storeAccesses .immediate .relative .position (running [2102, 1, -3, 0, 99] 0 2 []))).1
      = some { reason := .negativeAddress, info := -1 } ∧
    (Passes (running [1102, -9223372036854775808, -1, 0] 0 0 [])
        (storeAccesses .immediate .immediate .position (running [1102, -9223372036854775808, -1, 0] 0 0 [])) ∧
      ¬ InI64 (((running [1102, -9223372036854775808, -1, 0] 0 0 []).operand .immediate 1).toInt *
        ((running [1102, -9223372036854775808, -1, 0] 0 0 []).operand .immediate 2).toInt)) ∧
    (Passes (running [1102, -9223372036854775808, 1, 0] 0 0 [])
        (storeAccesses .immediate .immediate .position (running [1102, -9223372036854775808, 1, 0] 0 0 [])) ∧
      InI64 (((running [1102, -9223372036854775808, 1, 0] 0 0 []).operand .immediate 1).toInt *
        ((running [1102, -9223372036854775808, 1, 0] 0 0 []).operand .immediate 2).toInt)) := by
  unfold Passes; decide

theorem test_witness_LtStoresTheSignedComparison :
    (walk Config.reference 5 (storeAccesses .immediate .immediate .position (running [1107, 1, 1, -4, 99] 0 0 []))).1
      = some { reason := .negativeAddress, info := -4 } ∧
    Passes (running [1107, -1, 0, 0] 0 0 []) (storeAccesses .immediate .immediate .position (running [1107, -1, 0, 0] 0 0 [])) := by
  unfold Passes; decide

theorem test_witness_EqStoresTheEqualityTest :
    (walk Config.reference 5 (storeAccesses .immediate .immediate .immediate (running [11108, 1, 1, -4, 99] 0 0 []))).1
      = some { reason := .negativeAddress, info := -4 } ∧
    Passes (running [8, 1, 2, 30] 0 0 []) (storeAccesses .position .position .position (running [8, 1, 2, 30] 0 0 [])) := by
  unfold Passes; decide

theorem test_witness_InTakesTheFrontOfTheQueue :
    (running [3, 3, 99] 0 0 []).inq = [] ∧ (running [3, -1, 99] 0 0 [5, 6]).inq = 5 :: [6] ∧
    (walk Config.reference 3 (writeAccesses .position 1 (running [3, -1, 99] 0 0 [5, 6]))).1
      = some { reason := .negativeAddress, info := -1 } ∧
    (running [3, 10, 99] 0 0 [5, 6]).inq = 5 :: [6] ∧
    Passes (running [3, 10, 99] 0 0 [5, 6]) (writeAccesses .position 1 (running [3, 10, 99] 0 0 [5, 6])) := by
  unfold Passes; decide

theorem test_witness_OutAppendsItsOperand :
    (walk Config.reference 3 (valueAccesses .relative 1 (running [204, -1, 99] 0 0 []))).1
      = some { reason := .negativeAddress, info := -1 } ∧
    Passes (running [204, 0, 99] 0 0 []) (valueAccesses .relative 1 (running [204, 0, 99] 0 0 [])) := by
  unfold Passes; decide

theorem test_witness_JtJumpsWhenNonzero :
    (walk Config.reference 4 (jumpAccesses .immediate .position (running [105, 0, -3, 99] 0 0 []))).1
      = some { reason := .negativeAddress, info := -3 } ∧
    (Passes (running [1105, 1, -1] 0 0 []) (jumpAccesses .immediate .immediate (running [1105, 1, -1] 0 0 [])) ∧
      ((running [1105, 1, -1] 0 0 []).operand .immediate 1).toInt ≠ 0 ∧
      ((running [1105, 1, -1] 0 0 []).operand .immediate 2).toInt < 0) ∧
    (Passes (running [1105, -5, 0] 0 0 []) (jumpAccesses .immediate .immediate (running [1105, -5, 0] 0 0 [])) ∧
      ((running [1105, -5, 0] 0 0 []).operand .immediate 1).toInt ≠ 0 ∧
      0 ≤ ((running [1105, -5, 0] 0 0 []).operand .immediate 2).toInt) ∧
    (Passes (running [1105, 0, -1] 0 0 []) (jumpAccesses .immediate .immediate (running [1105, 0, -1] 0 0 [])) ∧
      ((running [1105, 0, -1] 0 0 []).operand .immediate 1).toInt = 0) := by
  unfold Passes; decide

theorem test_witness_JfJumpsWhenZero :
    (walk Config.reference 4 (jumpAccesses .position .immediate (running [1006, -3, 0, 99] 0 0 []))).1
      = some { reason := .negativeAddress, info := -3 } ∧
    (Passes (running [1106, 0, -1] 0 0 []) (jumpAccesses .immediate .immediate (running [1106, 0, -1] 0 0 [])) ∧
      ((running [1106, 0, -1] 0 0 []).operand .immediate 1).toInt = 0 ∧
      ((running [1106, 0, -1] 0 0 []).operand .immediate 2).toInt < 0) ∧
    (Passes (running [1106, 0, 0] 0 0 []) (jumpAccesses .immediate .immediate (running [1106, 0, 0] 0 0 [])) ∧
      ((running [1106, 0, 0] 0 0 []).operand .immediate 1).toInt = 0 ∧
      0 ≤ ((running [1106, 0, 0] 0 0 []).operand .immediate 2).toInt) ∧
    (Passes (running [1106, 1, -1] 0 0 []) (jumpAccesses .immediate .immediate (running [1106, 1, -1] 0 0 [])) ∧
      ((running [1106, 1, -1] 0 0 []).operand .immediate 1).toInt ≠ 0) := by
  unfold Passes; decide

theorem test_witness_ArbAddsToTheRelativeBase :
    (walk Config.reference 3 (valueAccesses .position 1 (running [9, -1, 99] 0 0 []))).1
      = some { reason := .negativeAddress, info := -1 } ∧
    (Passes (running [109, 1] 0 9223372036854775807 []) (valueAccesses .immediate 1 (running [109, 1] 0 9223372036854775807 [])) ∧
      ¬ InI64 ((running [109, 1] 0 9223372036854775807 []).rb.toInt +
        ((running [109, 1] 0 9223372036854775807 []).operand .immediate 1).toInt)) ∧
    (Passes (running [109, 1] 0 9223372036854775806 []) (valueAccesses .immediate 1 (running [109, 1] 0 9223372036854775806 [])) ∧
      InI64 ((running [109, 1] 0 9223372036854775806 []).rb.toInt +
        ((running [109, 1] 0 9223372036854775806 []).operand .immediate 1).toInt)) := by
  unfold Passes; decide

/-- The step clause of `HltFinishes`, at both ends of the cells that halt. -/
theorem test_witness_HltFinishes :
    ((running [99] 0 0 []).status.reason = .running ∧ (running [99] 0 0 []).ip < (running [99] 0 0 []).len ∧
      0 ≤ ((running [99] 0 0 []).cell 0).toInt ∧ ((running [99] 0 0 []).cell 0).toInt ≤ 99999 ∧
      ((running [99] 0 0 []).cell 0).toInt % 100 = 99) ∧
    ((running [99999] 0 0 []).ip < (running [99999] 0 0 []).len ∧ ((running [99999] 0 0 []).cell 0).toInt ≤ 99999 ∧
      ((running [99999] 0 0 []).cell 0).toInt % 100 = 99) := by decide

/-- Each premise of `OnlyTheNamedInstructionWrites` is met: `rb`, `inq`, `outlog` and a cell do change. -/
theorem test_witness_OnlyTheNamedInstructionWrites :
    after (fun t => decide (t.rb ≠ 0)) (exec (.arb .immediate 0 0) (running [109, 1] 0 0 [])) = some true ∧
    after (fun t => decide (t.inq ≠ [8])) (exec (.inp .position 0 0) (running [3, 0] 0 0 [8])) = some true ∧
    after (fun t => decide (t.outlog ≠ [])) (exec (.out .immediate 0 0) (running [104, 7] 0 0 [])) = some true ∧
    after (fun t => decide (t.cell 0 ≠ 1101)) (exec (.add .immediate .immediate .position) (running [1101, 2, 3, 0] 0 0 []))
      = some true := by decide

/-- A stop that leaves growth behind: reading cell 100 grows the tape before the destination stops it. -/
theorem test_witness_EveryStopIsPrecise :
    after (fun t => (stopOf t, t.len)) (exec (.add .position .position .position) (running [1, 100, 0, -5, 99] 0 0 []))
      = some ((.negativeAddress, -5, 0), 103) ∧
    after (fun t => (stopOf t, t.len)) (step (running [1, 100, 0, -5, 99] 0 0 [])) = some ((.negativeAddress, -5, 0), 103) ∧
    after stopOf (step (running [301] 0 0 [])) = some (.invalidMode, 301, 0) := by decide

theorem test_witness_CompletionAdvancesPastTheOperands :
    after stopOf (exec (.jt .immediate .immediate 0) (running [1105, 1, 0] 0 0 [])) = some (.running, 0, 0) ∧
    after stopOf (exec (.jt .immediate .immediate 0) (running [1105, 0, 0] 0 0 [])) = some (.running, 0, 3) := by decide

theorem test_witness_ARunningCoreAlwaysAnswersAState : (running [0] 0 0 []).status.reason = .running := by decide

/-- The five ranges of an address, of which exactly one case of `MemReadRule` and `MemWriteRule` holds: −1, the last
existing cell, the first cell past the end, the last address below `TAPE_CAP`, and `TAPE_CAP` itself. -/
theorem test_witness_MemReadRule_MemWriteRule :
    (running [7, 8] 0 0 []).len = 2 ∧ (running [7, 8] 0 0 []).cfg.tapeCap = 4611686018427387904 ∧ (-1 : Int) < 0 ∧
    after (fun _ => true) ((memRead 1 (running [7, 8] 0 0 [])).bind fun _ s => .ok () s).outcome = some true ∧
    after stopOf ((memRead (-1) (running [7, 8] 0 0 [])).bind fun _ s => .ok () s).outcome = some (.negativeAddress, -1, 0) ∧
    after (fun t => (t.cell 2, t.len)) (memWrite 2 9 (running [7, 8] 0 0 [])).outcome = some (9, 5) ∧
    after (fun t => t.len) (memWrite 4611686018427387903 9 (running [7, 8] 0 0 [])).outcome = some 4611686018427387904 ∧
    after stopOf (memWrite 4611686018427387904 9 (running [7, 8] 0 0 [])).outcome
      = some (.capacityExceeded, 4611686018427387904, 0) := by decide

/-- The first address past the end, and the last below `TAPE_CAP`; a kept cell and a new one. -/
theorem test_witness_GrowthKeepsOldCellsAndZeroesNewOnes :
    (running [7, 8] 0 0 []).len ≤ 2 ∧ 2 < (running [7, 8] 0 0 []).cfg.tapeCap ∧ 1 < (running [7, 8] 0 0 []).len ∧
    (running [7, 8] 0 0 []).len ≤ 4 ∧ 4 < ((running [7, 8] 0 0 []).grow 2).len ∧
    4611686018427387903 < (running [7, 8] 0 0 []).cfg.tapeCap := by decide

theorem test_witness_EveryAdmissibleGrowthIsSomeConfig :
    (∀ len a : Nat, len ≤ a → a < 10 → min 10 (a + 3) ≤ (fun _ b => min 10 (b + 5)) len a ∧
      (fun _ b => min 10 (b + 5)) len a ≤ 10) ∧
    ∀ q ∈ [((0 : Nat), (9 : Nat)), (9, 9)], q.1 ≤ q.2 ∧ q.2 < 10 :=
  ⟨fun _ _ _ _ => ⟨by simp only; omega, by simp only; omega⟩, by decide⟩

theorem test_witness_FetchPastTheEndIsExhausted :
    ((running [7] 1 0 []).len ≤ 1 ∧ 0 < (running [7] 1 0 []).len) ∧
    ((running [7] 1 0 []).status.reason = .running ∧ (running [7] 1 0 []).len ≤ (running [7] 1 0 []).ip) ∧
    (running [7] 0 0 []).len ≤ (running [7] 0 0 []).ip + 1 ∧
    (running [7] 0 0 []).ip + 1 < (running [7] 0 0 []).cfg.tapeCap := by decide

theorem test_witness_AWriteIsSeenByTheNextFetchAndRead :
    ∃ t, memWrite 5 9 (running [7] 0 0 []) = .ok () t := ⟨_, rfl⟩

theorem test_witness_ResolveValueRule :
    (walk Config.reference 2 (valueAccesses .position 1 (running [4, -1] 0 0 []))).1
      = some { reason := .negativeAddress, info := -1 } ∧
    Passes (running [104, -1] 0 0 []) (valueAccesses .immediate 1 (running [104, -1] 0 0 [])) ∧
    Passes (running [4, 4611686018427387903] 0 0 []) (valueAccesses .position 1 (running [4, 4611686018427387903] 0 0 [])) ∧
    Passes (running [204, -1] 0 1 []) (valueAccesses .relative 1 (running [204, -1] 0 1 [])) := by
  unfold Passes; decide

theorem test_witness_ResolveWriteRule :
    (walk Config.reference 2 (writeAccesses .immediate 1 (running [103, 4611686018427387904] 0 0 []))).1
      = some { reason := .capacityExceeded, info := 4611686018427387904 } ∧
    Passes (running [3, 0] 0 0 []) (writeAccesses .position 1 (running [3, 0] 0 0 [])) ∧
    Passes (running [203, -1] 0 1 []) (writeAccesses .relative 1 (running [203, -1] 0 1 [])) := by
  unfold Passes; decide

/-- The sum −1, the sum `TAPE_CAP`, and the ends of the sum's range. -/
theorem test_witness_RelativeAddressesAreExact :
    (running [204, -1] 0 0 []).ip + 1 < (running [204, -1] 0 0 []).cfg.tapeCap ∧
    (running [204, -1] 0 0 []).rb.toInt + ((running [204, -1] 0 0 []).param 1).toInt = -1 ∧
    (running [204, 1] 0 4611686018427387903 []).rb.toInt + ((running [204, 1] 0 4611686018427387903 []).param 1).toInt
      = 4611686018427387904 ∧
    (running [204, -9223372036854775808] 0 (-9223372036854775808) []).rb.toInt +
      ((running [204, -9223372036854775808] 0 (-9223372036854775808) []).param 1).toInt = -2 ^ 64 := by decide

theorem test_witness_TheAluIsExactOrOverflows :
    InI64 ((9223372036854775806 : Cell).toInt + (1 : Cell).toInt) ∧ ¬ InI64 ((9223372036854775807 : Cell).toInt + (1 : Cell).toInt) ∧
    InI64 ((3037000499 : Cell).toInt * (3037000499 : Cell).toInt) ∧ ¬ InI64 ((4294967296 : Cell).toInt * (4294967296 : Cell).toInt) := by
  decide

theorem test_witness_DecodeOfEncodeIsTheInstruction : (Instr.jf .relative .immediate 9).wellFormed = true := by decide

theorem test_witness_EncodeOfDecodeIsTheCell : decode 91206 = .ok (.jf .relative .immediate 9) := by decide

/-- The ends of the two ranges, and a running core that fetches an invalid cell. -/
theorem test_witness_DecodeReadsTheDecimalDigits :
    (-1 : Cell).toInt < 0 ∧ 99999 < (100000 : Cell).toInt ∧ 0 ≤ (0 : Cell).toInt ∧ (99999 : Cell).toInt ≤ 99999 ∧
    (running [100000] 0 0 []).ip < (running [100000] 0 0 []).len ∧
    (running [100000] 0 0 []).cell (running [100000] 0 0 []).ip = 100000 := by decide

/-- The rows of the table of rule R89 in order: below 0, above 99999, opcode 0, 10 and 98, and a used digit of 3. -/
theorem test_witness_IllegalCellsStop :
    ((running [-1] 0 0 []).ip < (running [-1] 0 0 []).len ∧ ((running [-1] 0 0 []).cell 0).toInt < 0) ∧
    99999 < ((running [100000] 0 0 []).cell 0).toInt ∧
    ((running [1100] 0 0 []).cell 0).toInt = 0 + 100 * 1 + 1000 * 1 + 10000 * 0 ∧
    ((running [10] 0 0 []).cell 0).toInt = 10 + 100 * 0 + 1000 * 0 + 10000 * 0 ∧
    ((running [98] 0 0 []).cell 0).toInt = 98 + 100 * 0 + 1000 * 0 + 10000 * 0 ∧
    ((running [30008] 0 0 []).cell 0).toInt = 8 + 100 * 0 + 1000 * 0 + 10000 * 3 ∧
    ((running [3005] 0 0 []).cell 0).toInt = 5 + 100 * 0 + 1000 * 3 + 10000 * 0 ∧
    ((running [309] 0 0 []).cell 0).toInt = 9 + 100 * 3 + 1000 * 0 + 10000 * 0 := by decide

theorem test_witness_UnusedModeDigitsAreIgnored :
    decode 3 = .ok (.inp .position 0 0) ∧ 0 ≤ (99003 : Cell).toInt ∧ (99003 : Cell).toInt ≤ 99999 ∧
    (99003 : Cell).toInt % 10 ^ (2 + (Instr.inp .position 0 0).nparam) = (3 : Cell).toInt % 10 ^ (2 + (Instr.inp .position 0 0).nparam) := by
  decide

theorem test_witness_AStepRunsTheDecodedInstruction :
    (running [109, 1] 0 0 []).status.reason = .running ∧ (running [109, 1] 0 0 []).ip < (running [109, 1] 0 0 []).len ∧
    decode ((running [109, 1] 0 0 []).cell (running [109, 1] 0 0 []).ip) = .ok (.arb .immediate 0 0) := by decide

theorem test_witness_APlacedWordRunsNext : decodeTableWord 128 (5 * 2 ^ 64 + 109) = some (.arb .immediate 0 0) := by decide

/-- The four cases of `TheReasonFollowsTheStateDiagram`, each by a step: idle, a stop, a run, a load. -/
theorem test_witness_TheReasonFollowsTheStateDiagram :
    after (fun t => t.status.reason) (step (fresh [99] [])) = some .notStarted ∧
    after (fun t => t.status.reason) (step (running [99] 0 0 [])) = some .finished ∧
    after (fun t => t.status.reason) (step (fresh [99] [.run []])) = some .running ∧
    after (fun t => t.status.reason) (step { (running [99] 0 0 []).raise { reason := .finished, info := 0 } with
      pending := [.load [1]] }) = some .notStarted := by decide

theorem test_witness_RunStartsTheEngineOrDoesNothing :
    ((fresh [99] [.run [5]]).pending = .run [5] :: [] ∧ (fresh [99] [.run [5]]).status.reason.startable = true) ∧
    StopReason.inputEmpty.startable = true ∧ StopReason.finished.terminal = true := by decide

/-- A core of one cell with actions to come. -/
def tiny (acts : List HostAction) : State := { fresh [] acts with cfg := { Config.reference with tapeCap := 1 } }

/-- A state with a program of exactly `TAPE_CAP` cells to load, and one with a program of one more. -/
theorem test_witness_LoadResetsTheCore :
    ((tiny [.load [1]]).status.reason ≠ .running ∧ (tiny [.load [1]]).pending = .load [1] :: [] ∧
      [(1 : Cell)].length ≤ (tiny [.load [1]]).cfg.tapeCap) ∧
    ((tiny [.load [1, 2]]).status.reason ≠ .running ∧ (tiny [.load [1, 2]]).pending = .load [1, 2] :: [] ∧
      (tiny [.load [1, 2]]).cfg.tapeCap < [(1 : Cell), 2].length) := by decide

/-- A running core, and a stopped one with its last existing cell and the first that does not exist. -/
theorem test_witness_TheHostAccessesTheTapeOnlyBetweenRuns :
    (running [7, 8] 0 0 []).status.reason = .running ∧ (fresh [7, 8] []).status.reason ≠ .running ∧
    1 < (fresh [7, 8] []).len ∧ (fresh [7, 8] []).len ≤ 2 := by decide

/-- A write to the last existing cell, and one to the first that does not exist. -/
theorem test_witness_TheHostActsBetweenRuns :
    (fresh [7, 8] [.writeCell 1 9]).status.reason ≠ .running ∧ (fresh [7, 8] [.writeCell 1 9]).pending = .writeCell 1 9 :: [] ∧
    1 < (fresh [7, 8] [.writeCell 1 9]).len ∧ (fresh [7, 8] [.writeCell 2 9]).len ≤ 2 ∧
    (fresh [7, 8] [.discardInput]).pending = .discardInput :: [] ∧ (fresh [7, 8] []).pending = [] := by decide

theorem test_witness_OutputAndLengthOnlyGrow :
    (∀ act ∈ (fresh [104, 7, 99] [.run [], .writeCell 0 1]).pending, act.isLoad = false) ∧
    after (fun t => (t.outlog, t.cell 0)) (runFor 4 (fresh [104, 7, 99] [.run [], .writeCell 0 1])) = some ([7], 1) := by decide

theorem test_witness_TerminalStopsAreFinal :
    { fresh [99] [.run [5]] with status := { reason := .finished, info := 0 } }.status.reason.terminal = true ∧
    ∀ act ∈ { fresh [99] [.run [5]] with status := { reason := .finished, info := 0 } }.pending, ∃ batch, act = .run batch :=
  ⟨by decide, fun act h => ⟨[5], List.mem_singleton.1 h⟩⟩

theorem test_witness_ASelfJumpNeverStops :
    (running [1105, 1, 0] 0 0 []).status.reason = .running ∧ (running [1105, 1, 0] 0 0 []).ip + 2 < (running [1105, 1, 0] 0 0 []).len ∧
    (running [1105, 1, 0] 0 0 []).len ≤ (running [1105, 1, 0] 0 0 []).cfg.tapeCap ∧
    (running [1105, 1, 0] 0 0 []).cell (running [1105, 1, 0] 0 0 []).ip = 1105 ∧ ((running [1105, 1, 0] 0 0 []).param 1).toInt ≠ 0 ∧
    ((running [1105, 1, 0] 0 0 []).param 2).toInt = (running [1105, 1, 0] 0 0 []).ip := by decide

/-- Vector IN-11: the first run stops with InputEmpty. -/
theorem test_witness_ResumptionIsInvisible :
    (fresh [3, 3, 99, 0] []).status.reason.startable = true ∧ (fresh [3, 3, 99, 0] []).status.info = 0 ∧
    (fresh [3, 3, 99, 0] []).pending = [] ∧
    after (fun t => t.status.reason) (runFor 1 (hostRun [] (fresh [3, 3, 99, 0] []))) = some .inputEmpty := by decide

/-- Vector IN-11 in two calls, to its end. -/
theorem test_witness_AnySplitOfTheInputGivesTheSameRun :
    [([] : List Cell), [42]] ≠ [] ∧ (fresh [3, 3, 99, 0] [.run [], .run [42]]).pending = [([] : List Cell), [42]].map .run ∧
    after (fun t => (t.pending, t.status.reason, t.cell 3)) (runFor 5 (fresh [3, 3, 99, 0] [.run [], .run [42]]))
      = some ([], .finished, 42) := by decide

theorem test_witness_EveryStepKeepsTheInvariant :
    (running [1, 100, 0, 50] 0 0 []).Inv ∧
    after (fun t => (t.cell 50, t.len)) (step (running [1, 100, 0, 50] 0 0 [])) = some (1, 103) := by decide

end Sys2Proof.Tests
end

section
/-! The invariant, kept by every update of the state, then by every completion and stop of an instruction, by every
host action, and so by every step (O44). -/

namespace Sys2Proof.Machine

/-! ### The updates of the state -/

theorem State.Inv.cap_le {s : State} (h : s.Inv) : s.cfg.tapeCap ≤ 2 ^ 62 := by
  obtain ⟨⟨_, hcap⟩, _⟩ := h
  exact hcap

theorem State.Inv.len_le {s : State} (h : s.Inv) : s.len ≤ s.cfg.tapeCap := by
  obtain ⟨_, _, _, hl, _⟩ := h
  exact hl

theorem State.Inv.ip_lt {s : State} (h : s.Inv) : s.ip < 2 ^ 63 := by
  obtain ⟨_, _, _, _, hip, _⟩ := h
  exact hip

/-- A start and a resumption find an `info` of 0 (rules R112, R350). -/
theorem State.Inv.info_of_not_terminal {s : State} (h : s.Inv) (ht : s.status.reason.terminal = false) :
    s.status.info = 0 := by
  obtain ⟨_, _, _, _, _, _, hz⟩ := h
  exact hz ht

theorem State.Inv.raise {s : State} (h : s.Inv) {x : Status} (hr : -2 ^ 64 ≤ x.info ∧ x.info < 2 ^ 64)
    (hz : x.reason.terminal = false → x.info = 0) : (s.raise x).Inv := by
  obtain ⟨hc, hw, hk, hl, hip, _, _⟩ := h
  exact ⟨hc, hw, hk, hl, hip, hr, hz⟩

theorem State.Inv.setIp {s : State} (h : s.Inv) {a : Nat} (ha : a < 2 ^ 63) : (s.setIp a).Inv := by
  obtain ⟨hc, hw, hk, hl, _, hr, hz⟩ := h
  exact ⟨hc, hw, hk, hl, ha, hr, hz⟩

theorem State.Inv.setRb {s : State} (h : s.Inv) (v : Cell) : (s.setRb v).Inv := h

theorem State.Inv.setInq {s : State} (h : s.Inv) (q : List Cell) : (s.setInq q).Inv := h

theorem State.Inv.appendOut {s : State} (h : s.Inv) (v : Cell) : (s.appendOut v).Inv := h

theorem State.Inv.setPending {s : State} (h : s.Inv) (acts : List HostAction) :
    ({ s with pending := acts } : State).Inv := h

/-- A store into a cell that exists lists no cell past the end. -/
theorem State.Inv.store {s : State} (h : s.Inv) {a : Nat} (ha : a < s.len) (v : Cell) : (s.store a v).Inv := by
  obtain ⟨hc, hw, hk, hrest⟩ := h
  refine ⟨hc, Memory.wf_write hw a v, fun e he => ?_, hrest⟩
  rcases Memory.mem_write he with rfl | he
  · exact ha
  · exact hk e he

/-- Growth within the capacity keeps the invariant. -/
theorem State.Inv.grows {s g : State} {n : Nat} (h : s.Inv) (hg : Grows s g n) (hn : n ≤ s.cfg.tapeCap) : g.Inv := by
  obtain ⟨hc, hw, hk, _, hip, hinfo⟩ := h
  rw [← hg.cfg] at hc
  rw [← hg.cfg, ← hg.len] at hn
  rw [← hg.ip] at hip
  rw [← hg.status] at hinfo
  exact ⟨hc, hg.wf hw, hg.keys hk, hn, hip, hinfo⟩

theorem State.Inv.touch {s : State} (h : s.Inv) {a : Nat} (ha : a < s.cfg.tapeCap) : (s.touch a).Inv :=
  h.grows (grows_touch ha) (touchLen_le_cap h.len_le a)

/-- `MemWrite` below the capacity (rule R54): growth, then a store into a cell that exists. -/
theorem State.Inv.touch_store {s : State} (h : s.Inv) {a : Nat} (ha : a < s.cfg.tapeCap) (v : Cell) :
    ((s.touch a).store a v).Inv :=
  (h.touch ha).store (by rw [State.touch_len]; exact lt_touchLen ha s.len) v

/-! ### Instructions -/

/-- Every completion keeps the invariant. The next `ip` is at most one past a parameter cell, which lies below
`TAPE_CAP`, or is a cell's value. -/
theorem Completes.inv {i : Instr} {s g t : State} (h : Completes i s g t) (hs : s.Inv) (hg : g.Inv)
    (hcfg : g.cfg = s.cfg) : t.Inv := by
  have hcap := hs.cap_le
  cases h with
  | store d r _ _ hd hip => exact (hg.touch_store (by rw [hcfg]; exact hd) r).setIp (by omega)
  | input d v rest _ _ _ hd hip =>
    exact ((hg.setInq rest).touch_store (by rw [State.setInq_cfg, hcfg]; exact hd) v).setIp (by omega)
  | output v _ _ hip => exact (hg.appendOut v).setIp (by omega)
  | jump m1 m2 x3 _ ht =>
    have hv := cell_toInt_bounds (s.operand m2 2)
    exact hg.setIp (by omega)
  | fall _ _ hip => exact hg.setIp (by omega)
  | base v _ _ hip => exact (hg.setRb v).setIp (by omega)

theorem exec_inv {i : Instr} {s t : State} (hs : s.Inv) (h : exec i s = .next t) : t.Inv := by
  obtain ⟨g, n, hgr, _, hn, hcases⟩ := exec_cases h
  have hg : g.Inv := hs.grows hgr (hn hs.len_le)
  rcases hcases with ⟨x, hx, _, rfl⟩ | hcompl
  · exact hg.raise (hx.range hs.ip_lt) hx.zero
  · exact hcompl.inv hs hg hgr.cfg

/-! ### Host actions -/

/-- A load within the capacity sets every field the invariant bounds, but for the parameters, which it keeps
(rule R350). -/
theorem loaded_inv {s : State} (h : s.Inv) {program : List Cell} (hp : program.length ≤ s.cfg.tapeCap) :
    (loaded program s).Inv := by
  obtain ⟨hc, _⟩ := h
  refine ⟨hc, Memory.wf_ofCells program 0, fun e he => ?_, hp, Nat.two_pow_pos 63, by simp [loaded], fun _ => rfl⟩
  obtain ⟨_, hlt, _⟩ := Memory.mem_ofCells he
  simpa only [loaded, Nat.zero_add] using hlt

theorem terminal_of_startable {r : StopReason} (h : r.startable = true) : r.terminal = false := by
  revert h; cases r <;> decide

/-- `run` leaves `info` as it is, and starts the engine only where that is 0 (rules R120, R121). -/
theorem hostRun_inv {s : State} (h : s.Inv) (batch : List Cell) : (hostRun batch s).Inv := by
  cases hst : s.status.reason.startable with
  | false => rw [hostRun_of_not_startable hst]; exact h
  | true =>
    rw [hostRun_of_startable hst]
    have hz := h.info_of_not_terminal (terminal_of_startable hst)
    obtain ⟨hc, hw, hk, hl, hip, hr, _⟩ := h
    exact ⟨hc, hw, hk, hl, hip, hr, fun _ => hz⟩

theorem hostStep_inv {s t : State} (hs : s.Inv) (h : hostStep s = .next t) : t.Inv := by
  rcases hostStep_cases h with ⟨_, rfl⟩ | ⟨program, rest, _, hp, rfl⟩ | ⟨batch, rest, _, rfl⟩ |
    ⟨a, v, rest, _, ha, rfl⟩ | ⟨rest, _, rfl⟩
  · exact hs
  · exact loaded_inv (hs.setPending rest) hp
  · exact hostRun_inv (hs.setPending rest) batch
  · exact (hs.setPending rest).store ha v
  · exact (hs.setPending rest).setInq []

/-! ### Every step -/

/-- Settles O44: a running core stops in the prologue or runs an instruction, any other core takes the host's next
action, and each of the three keeps the invariant. -/
theorem everyStepKeepsTheInvariant : Obligations.EveryStepKeepsTheInvariant := by
  intro s t hs h
  by_cases hr : s.status.reason = .running
  · rcases step_cases_running hr h with ⟨x, hterm, hrange, rfl⟩ | ⟨i, _, _, hexec⟩
    · exact hs.raise (hrange hs.ip_lt) fun hf => by rw [hterm] at hf; cases hf
    · exact exec_inv hs hexec
  · rw [step_of_not_running hr] at h
    exact hostStep_inv hs h

end Sys2Proof.Machine
end

section
/-! What an instruction may change (O11), how the reason may change in a step (O34), and that no output is lost and the
tape never shrinks without a load (O38). -/

namespace Sys2Proof.Machine

/-! ### What a completion changes

The completed state `t` is compared with the grown state `g`, from which the completion started. -/

theorem Completes.opcode_of_rb_ne {i : Instr} {s g t : State} (h : Completes i s g t) (hne : t.rb ≠ g.rb) :
    i.opcode = 9 := by
  cases h with
  | base v hi => exact hi
  | store | input | output | jump | fall => simp at hne

/-- The queue changes by losing its front (rule R34). -/
theorem Completes.opcode_of_inq_ne {i : Instr} {s g t : State} (h : Completes i s g t) (hne : t.inq ≠ g.inq) :
    i.opcode = 3 ∧ ∃ v, s.inq = v :: t.inq := by
  cases h with
  | input d v rest hi _ hq => exact ⟨hi, v, by simpa using hq⟩
  | store | output | jump | fall | base => simp at hne

/-- The log changes by one appended element (rule R35). -/
theorem Completes.opcode_of_outlog_ne {i : Instr} {s g t : State} (h : Completes i s g t)
    (hne : t.outlog ≠ g.outlog) : i.opcode = 4 ∧ ∃ v, t.outlog = g.outlog ++ [v] := by
  cases h with
  | output v hi => exact ⟨hi, v, rfl⟩
  | store | input | jump | fall | base => simp at hne

/-- Only the completions that end in a tape write change a cell. -/
theorem Completes.opcode_of_cell_ne {i : Instr} {s g t : State} (h : Completes i s g t) {a : Nat}
    (hne : t.cell a ≠ g.cell a) : i.opcode ∈ [1, 2, 3, 7, 8] := by
  cases h with
  | store d r hi =>
    simp only [List.mem_cons] at hi ⊢
    tauto
  | input d v rest hi => simp [hi]
  | output | jump | fall | base => exact absurd rfl hne

/-- The write of a completion grows the tape or leaves its length (rules R33, R54). -/
theorem Completes.len_le {i : Instr} {s g t : State} (h : Completes i s g t) (hcfg : g.cfg = s.cfg) :
    g.len ≤ t.len := by
  cases h with
  | store _ _ _ _ hd | input _ _ _ _ _ _ hd =>
    rw [← hcfg] at hd
    simpa using le_touchLen hd g.len
  | output | jump | fall | base => exact le_rfl

theorem Completes.status_eq {i : Instr} {s g t : State} (h : Completes i s g t) : t.status = g.status := by
  cases h <;> simp

theorem Completes.cfg_eq {i : Instr} {s g t : State} (h : Completes i s g t) : t.cfg = g.cfg := by
  cases h <;> simp

theorem Completes.pending_eq {i : Instr} {s g t : State} (h : Completes i s g t) : t.pending = g.pending := by
  cases h <;> simp

/-- Settles O11: growth changes only the tape and its length, a stop only the status register besides, and each
completion what its opcode is named for. -/
theorem onlyTheNamedInstructionWrites : Obligations.OnlyTheNamedInstructionWrites := by
  intro i s t h
  obtain ⟨g, n, hg, hn, _, hcases⟩ := exec_cases h
  rw [← hg.rb, ← hg.outlog, ← hg.cfg, ← hg.pending]
  simp only [← hg.cells]
  have hlen : s.len ≤ g.len := hg.len ▸ hn
  rcases hcases with ⟨x, _, _, rfl⟩ | hc
  · exact ⟨fun hne => absurd rfl hne, fun hne => absurd hg.inq hne, fun hne => absurd rfl hne,
      fun ⟨a, hne⟩ => absurd rfl hne, hlen, rfl, rfl⟩
  · exact ⟨hc.opcode_of_rb_ne, fun hne => hc.opcode_of_inq_ne (hg.inq ▸ hne), hc.opcode_of_outlog_ne,
      fun ⟨a, hne⟩ => hc.opcode_of_cell_ne hne, hlen.trans (hc.len_le hg.cfg), hc.cfg_eq, hc.pending_eq⟩

/-! ### The reason -/

/-- An instruction that stops does not stop as NotStarted, and one that completes leaves the reason (rule R29). -/
theorem exec_reason_ne_notStarted {i : Instr} {s t : State} (hs : s.status.reason ≠ .notStarted)
    (h : exec i s = .next t) : t.status.reason ≠ .notStarted := by
  obtain ⟨g, n, hg, _, _, ⟨x, hx, _, rfl⟩ | hc⟩ := exec_cases h
  · exact hx.reason.2
  · rwa [hc.status_eq, hg.status]

theorem ne_notStarted_of_terminal {r : StopReason} (ht : r.terminal = true) : r ≠ .notStarted := by
  rintro rfl
  cases ht

/-- A step of a running core does not make it NotStarted (rule R29). -/
theorem step_running_reason_ne_notStarted {s t : State} (hr : s.status.reason = .running) (h : step s = .next t) :
    t.status.reason ≠ .notStarted := by
  rcases step_cases_running hr h with ⟨x, hx, _, rfl⟩ | ⟨i, _, _, hexec⟩
  · exact ne_notStarted_of_terminal hx
  · exact exec_reason_ne_notStarted (by simp [hr]) hexec

/-- `run` starts the engine from a startable reason and otherwise leaves the reason (rules R29, R120). -/
theorem hostRun_reason (batch : List Cell) (s : State) :
    (hostRun batch s).status.reason = s.status.reason ∨
      (s.status.reason.startable = true ∧ (hostRun batch s).status.reason = .running) := by
  cases hst : s.status.reason.startable with
  | true => exact .inr ⟨rfl, by rw [hostRun_of_startable hst]⟩
  | false => exact .inl (by rw [hostRun_of_not_startable hst])

/-- Settles O34: a running core never becomes NotStarted; of the host's actions only `run`, from a startable reason, and
`load` write the reason. -/
theorem theReasonFollowsTheStateDiagram : Obligations.TheReasonFollowsTheStateDiagram := by
  intro s t h
  by_cases hr : s.status.reason = .running
  · exact .inr (.inl ⟨hr, step_running_reason_ne_notStarted hr h⟩)
  rw [step_of_not_running hr] at h
  rcases hostStep_cases h with ⟨_, rfl⟩ | ⟨program, rest, hp, _, rfl⟩ | ⟨batch, rest, hp, rfl⟩ |
    ⟨a, v, rest, _, _, rfl⟩ | ⟨rest, _, rfl⟩
  · exact .inl rfl
  · exact .inr (.inr (.inr ⟨hr, rfl, program, rest, hp⟩))
  · rcases hostRun_reason batch { s with pending := rest } with hsame | ⟨hst, hrun⟩
    · exact .inl hsame
    · exact .inr (.inr (.inl ⟨hst, hrun, batch, rest, hp⟩))
  · exact .inl rfl
  · exact .inl rfl

/-! ### Output and length -/

@[simp] theorem hostRun_len (batch : List Cell) (s : State) : (hostRun batch s).len = s.len := by
  unfold hostRun; split <;> rfl
@[simp] theorem hostRun_outlog (batch : List Cell) (s : State) : (hostRun batch s).outlog = s.outlog := by
  unfold hostRun; split <;> rfl
@[simp] theorem hostRun_pending (batch : List Cell) (s : State) : (hostRun batch s).pending = s.pending := by
  unfold hostRun; split <;> rfl

/-- What a step or a run without a load keeps: the output so far and the length reached, with no load to come. -/
structure Extends (s t : State) : Prop where
  outlog : s.outlog <+: t.outlog
  len : s.len ≤ t.len
  noLoad : ∀ act ∈ t.pending, act.isLoad = false

theorem Extends.refl {s : State} (h : ∀ act ∈ s.pending, act.isLoad = false) : Extends s s :=
  ⟨List.prefix_rfl, le_rfl, h⟩

theorem Extends.trans {s t u : State} (h1 : Extends s t) (h2 : Extends t u) : Extends s u :=
  ⟨h1.outlog.trans h2.outlog, h1.len.trans h2.len, h2.noLoad⟩

theorem exec_extends {i : Instr} {s t : State} (hp : ∀ act ∈ s.pending, act.isLoad = false)
    (h : exec i s = .next t) : Extends s t := by
  obtain ⟨_, _, hout, _, hlen, _, hpend⟩ := onlyTheNamedInstructionWrites i s t h
  refine ⟨?_, hlen, hpend ▸ hp⟩
  by_cases hsame : t.outlog = s.outlog
  · rw [hsame]
  · obtain ⟨_, v, happ⟩ := hout hsame
    exact ⟨[v], happ.symm⟩

/-- A host action other than a load leaves the log and the length alone (rule R124). -/
theorem hostStep_extends {s t : State} (hp : ∀ act ∈ s.pending, act.isLoad = false)
    (h : hostStep s = .next t) : Extends s t := by
  have hrest : ∀ {act rest}, s.pending = act :: rest → ∀ act' ∈ rest, act'.isLoad = false :=
    fun hs act' hact => hp act' (hs ▸ List.mem_cons_of_mem _ hact)
  rcases hostStep_cases h with ⟨_, rfl⟩ | ⟨program, rest, hs, _, _⟩ | ⟨batch, rest, hs, rfl⟩ |
    ⟨a, v, rest, hs, _, rfl⟩ | ⟨rest, hs, rfl⟩
  · exact .refl hp
  · have hload := hp (.load program) (by simp [hs])
    cases hload
  · exact ⟨by simp, by simp, by simpa using hrest hs⟩
  · exact ⟨List.prefix_rfl, le_rfl, hrest hs⟩
  · exact ⟨List.prefix_rfl, le_rfl, hrest hs⟩

theorem step_extends {s t : State} (hp : ∀ act ∈ s.pending, act.isLoad = false) (h : step s = .next t) :
    Extends s t := by
  by_cases hr : s.status.reason = .running
  · rcases step_cases_running hr h with ⟨x, _, _, rfl⟩ | ⟨i, _, _, hexec⟩
    · exact ⟨List.prefix_rfl, le_rfl, hp⟩
    · exact exec_extends hp hexec
  · rw [step_of_not_running hr] at h
    exact hostStep_extends hp h

theorem runFor_extends {n : Nat} {s t : State} (hp : ∀ act ∈ s.pending, act.isLoad = false)
    (h : runFor n s = .next t) : Extends s t := by
  induction n generalizing s with
  | zero => cases h; exact .refl hp
  | succ n ih =>
    obtain ⟨u, hstep, hrun⟩ := runFor_succ_next h
    have hu := step_extends hp hstep
    exact hu.trans (ih hu.noLoad hrun)

/-- Settles O38, by induction on the number of steps: every step extends the log and the length, and no step brings a
load. -/
theorem outputAndLengthOnlyGrow : Obligations.OutputAndLengthOnlyGrow := by
  intro n s t hp h
  have hext := runFor_extends hp h
  exact ⟨hext.outlog, hext.len⟩

end Sys2Proof.Machine
end

section
/-! The reason codes (O33), the load (O36) and the state after reset (O43). -/

namespace Sys2Proof.Machine

/-! ### The reasons -/

/-- The table of rule R28, each reason at its code. -/
def reasonTable : List StopReason :=
  [.notStarted, .running, .finished, .exhausted, .inputEmpty, .unknownOpcode, .negativeAddress, .invalidMode,
    .overflow, .capacityExceeded]

theorem reasonTable_code (r : StopReason) : reasonTable[r.code.toNat]? = some r := by
  cases r <;> rfl

/-- The table reads a reason back from its code, so no two share one (rule R28). -/
theorem StopReason.code_injective {r q : StopReason} (h : r.code = q.code) : r = q := by
  have hr := reasonTable_code r
  rw [h, reasonTable_code q] at hr
  exact (Option.some.inj hr).symm

theorem StopReason.startable_iff (r : StopReason) : r.startable = true ↔ r = .notStarted ∨ r = .inputEmpty := by
  cases r <;> decide

theorem StopReason.terminal_iff (r : StopReason) :
    r.terminal = true ↔ r ∈ [.finished, .exhausted, .unknownOpcode, .negativeAddress, .invalidMode, .overflow,
      .capacityExceeded] := by
  cases r <;> decide

/-- Settles O33: the codes are the table's by definition, and the table inverts them. -/
theorem theReasonCodes : Obligations.TheReasonCodes :=
  ⟨rfl, rfl, rfl, rfl, rfl, rfl, rfl, rfl, rfl, rfl, fun _ _ => StopReason.code_injective,
    fun r => ⟨r.startable_iff, r.terminal_iff⟩⟩

/-! ### The load -/

/-- A core that does not run takes the host's next action (rule R124). -/
theorem step_of_pending {s : State} {act : HostAction} {rest : List HostAction} (hr : s.status.reason ≠ .running)
    (hp : s.pending = act :: rest) : step s = performHost act { s with pending := rest } := by
  rw [step_of_not_running hr, hostStep, hp]

/-- The loaded tape holds the program and 0 past its end (rules R38, R350). -/
theorem loaded_cell (program : List Cell) (s : State) (a : Nat) : (loaded program s).cell a = program.getD a 0 := by
  have hread : (loaded program s).tape.read a = program.getD a 0 := by
    simpa [loaded] using Memory.read_ofCells program 0 a
  unfold State.cell
  split
  · exact hread
  · rename_i hge
    rw [List.getD_eq_default _ _ (Nat.le_of_not_lt hge)]

/-- Settles O36: the step performs the load, which checks the program's length and else gives `loaded`. -/
theorem loadResetsTheCore : Obligations.LoadResetsTheCore := by
  intro s program rest hr hp
  rw [step_of_pending hr hp]
  constructor
  · intro hfits
    exact ⟨_, if_pos hfits, loaded_cell program _, rfl, rfl, rfl, rfl, rfl, rfl, rfl, rfl⟩
  · intro hlong
    exact if_neg (Nat.not_le_of_lt hlong)

/-! ### The reset -/

theorem Config.reference_wf : Config.reference.wf := ⟨Nat.one_le_two_pow, le_rfl⟩

/-- No cell is listed, and `len`, `ip` and `info` are 0 (rules R38, R350). -/
theorem reset_inv : State.reset.Inv :=
  ⟨Config.reference_wf, Memory.wf_nil, by simp [State.reset], Nat.zero_le _, Nat.two_pow_pos 63, by decide, fun _ => rfl⟩

/-- Settles O43: the reset is the load of no cells by definition. -/
theorem resetMeetsTheInvariant : Obligations.ResetMeetsTheInvariant := ⟨reset_inv, rfl⟩

end Sys2Proof.Machine
end

section
/-! The tape: the rules of MemRead (O15), MemWrite (O16), growth (O17, O18) and fetch (O19), and a write seen by the
next access (O20). -/

namespace Sys2Proof.Machine

/-! ### The cases of an address -/

theorem addressStop_of_neg {a : Int} (h : a < 0) (c : Config) :
    addressStop c a = some { reason := .negativeAddress, info := a } := if_pos h

theorem addressStop_of_cap_le {c : Config} {a : Int} (h0 : 0 ≤ a) (h : (c.tapeCap : Int) ≤ a) :
    addressStop c a = some { reason := .capacityExceeded, info := a } := by
  rw [addressStop, if_neg h0.not_gt, if_pos h]

theorem State.touch_of_len_le {s : State} {a : Nat} (h : s.len ≤ a) : s.touch a = s.grow a := if_pos h

theorem State.touch_of_lt_len {s : State} {a : Nat} (h : a < s.len) : s.touch a = s := if_neg h.not_ge

theorem State.cell_of_len_le {s : State} {a : Nat} (h : s.len ≤ a) : s.cell a = 0 := if_neg h.not_gt

theorem State.cell_of_lt_len {s : State} {a : Nat} (h : a < s.len) : s.cell a = s.tape.read a := if_pos h

/-! ### Reading -/

theorem memRead_of_addressStop {s : State} {a : Int} {x : Status} (h : addressStop s.cfg a = some x) :
    memRead a s = .stop x s := by rw [memRead_eq, h]

/-- A read that passes the checks gives the cell and grows as needed (rule R53). -/
theorem memRead_of_bounds {s : State} {a : Int} (h0 : 0 ≤ a) (hcap : a < (s.cfg.tapeCap : Int)) :
    memRead a s = .ok (s.cell a.toNat) (s.touch a.toNat) := by
  rw [memRead_eq, addressStop_eq_none.2 ⟨h0, hcap⟩]

/-- A read of an existing cell below the capacity changes nothing (rule R53). -/
theorem memRead_of_lt_len {s : State} {a : Int} (h0 : 0 ≤ a) (hcap : a < (s.cfg.tapeCap : Int))
    (hlen : a < (s.len : Int)) : memRead a s = .ok (s.cell a.toNat) s := by
  rw [memRead_of_bounds h0 hcap, State.touch_of_lt_len (by omega)]

/-- Settles O15: the two stops are those of the address checks; past them the read grows exactly past the end, where
the cell is the 0 of the growth. -/
theorem memReadRule : Obligations.MemReadRule := by
  intro a s
  refine ⟨fun hneg => ?_, fun h0 hcap => ?_, fun h0 hcap hlen => ?_, memRead_of_lt_len⟩
  · exact memRead_of_addressStop (addressStop_of_neg hneg _)
  · exact memRead_of_addressStop (addressStop_of_cap_le h0 hcap)
  · have hle : s.len ≤ a.toNat := by omega
    rw [memRead_of_bounds h0 hcap, State.cell_of_len_le hle, State.touch_of_len_le hle]

/-! ### Writing -/

theorem memWrite_of_addressStop {s : State} {a : Int} {x : Status} (h : addressStop s.cfg a = some x) (v : Cell) :
    memWrite a v s = .stop x s := by rw [memWrite_eq, h]

/-- A write that passes the checks grows as needed and stores (rule R54). -/
theorem memWrite_of_bounds {s : State} {a : Int} (h0 : 0 ≤ a) (hcap : a < (s.cfg.tapeCap : Int)) (v : Cell) :
    memWrite a v s = .ok () ((s.touch a.toNat).store a.toNat v) := by
  rw [memWrite_eq, addressStop_eq_none.2 ⟨h0, hcap⟩]

/-- A write completes only on an address that passes the checks, and then as `memWrite_of_bounds` says. -/
theorem memWrite_eq_ok {s t : State} {a : Int} {v : Cell} (h : memWrite a v s = .ok () t) :
    0 ≤ a ∧ a < (s.cfg.tapeCap : Int) ∧ t = (s.touch a.toNat).store a.toNat v := by
  rw [memWrite_eq] at h
  cases hstop : addressStop s.cfg a with
  | some x => rw [hstop] at h; cases h
  | none =>
    obtain ⟨h0, hcap⟩ := addressStop_eq_none.1 hstop
    rw [hstop] at h; cases h
    exact ⟨h0, hcap, rfl⟩

/-- Settles O16: the stops are those of the address checks; past them growth changes no cell a program can read, and
the store only the one written. -/
theorem memWriteRule : Obligations.MemWriteRule := by
  intro a v s
  refine ⟨fun hneg => ?_, fun h0 hcap => ?_, fun h0 hcap => ?_⟩
  · exact memWrite_of_addressStop (addressStop_of_neg hneg _) v
  · exact memWrite_of_addressStop (addressStop_of_cap_le h0 hcap) v
  · have hlt : a.toNat < s.cfg.tapeCap := by omega
    have hlen : touchLen s.cfg s.len a.toNat = if (s.len : Int) ≤ a then growLen s.cfg s.len a.toNat else s.len :=
      if_congr (by omega) rfl rfl
    refine ⟨_, memWrite_of_bounds h0 hcap v, ?_, cell_touch_store hlt v⟩
    rw [← hlen]
    apply State.ext_fields <;> simp

/-! ### Growth -/

/-- Settles O17: the bounds of `GrowLen` place `a` inside the new tape, and the zero fill reaches from the old end
to the new one. -/
theorem growthKeepsOldCellsAndZeroesNewOnes : Obligations.GrowthKeepsOldCellsAndZeroesNewOnes := by
  intro s a hlen hcap
  have hle := growLen_le_cap s.cfg s.len a
  have hmin := min_le_growLen s.cfg s.len a
  have hlt : a < growLen s.cfg s.len a := by omega
  refine ⟨hle, hmin, rfl, hlen.trans hlt.le, hlt, fun b hb => ?_, fun b hb hb' => ?_⟩
  · rw [State.grow_tape, Memory.read_zeroFill, if_neg (by omega)]
  · rw [State.grow_tape, Memory.read_zeroFill, if_pos ⟨hb, hb'⟩]

/-- The row that makes the growth for the length and address `q` the one of the policy `g`. -/
def policyRow (g : Nat → Nat → Nat) (q : Nat × Nat) : GrowRow :=
  { len := q.1, addr := q.2, extra := g q.1 q.2 - (q.2 + 3) }

/-- Rows of one policy agree wherever they repeat, so each answers for its own length and address. -/
theorem growExtra_policyRows (g : Nat → Nat → Nat) (dflt : Nat) {asked : List (Nat × Nat)} {q : Nat × Nat}
    (hq : q ∈ asked) : growExtra dflt (asked.map (policyRow g)) q.1 q.2 = g q.1 q.2 - (q.2 + 3) := by
  induction asked with
  | nil => cases hq
  | cons p asked ih =>
    rw [List.map_cons, growExtra]
    split
    · rename_i hrow
      obtain ⟨hlen, haddr⟩ : p.1 = q.1 ∧ p.2 = q.2 := hrow
      rw [policyRow, hlen, haddr]
    · rename_i hrow
      refine ih ((List.mem_cons.1 hq).resolve_left ?_)
      rintro rfl
      exact hrow ⟨rfl, rfl⟩

/-- Settles O18: one row for each growth asked for. Under the capacity R55 leaves `g` at least `a + 3`, and otherwise
only the capacity itself, which the cut at `TAPE_CAP` gives. -/
theorem everyAdmissibleGrowthIsSomeConfig : Obligations.EveryAdmissibleGrowthIsSomeConfig := by
  intro cap g hg asked hasked
  refine ⟨{ tapeCap := cap, growDefault := 0, growRows := asked.map (policyRow g) }, rfl, fun q hq => ?_⟩
  obtain ⟨hlen, hcap⟩ := hasked q hq
  obtain ⟨hlow, hhigh⟩ := hg q.1 q.2 hlen hcap
  rw [growLen, growExtra_policyRows g 0 hq]
  simp only
  omega

/-! ### Fetch -/

/-- The prologue finds no cell (rules R57, R111). -/
theorem step_past_end {s : State} (hr : s.status.reason = .running) (hend : s.len ≤ s.ip) :
    step s = .next (s.raise { reason := .exhausted, info := s.ip }) := by
  rw [step_of_running hr, if_pos hend]

/-- The prologue finds an instruction (rule R111). -/
theorem step_of_decode_ok {s : State} {i : Instr} (hr : s.status.reason = .running) (hip : s.ip < s.len)
    (hd : decode (s.cell s.ip) = .ok i) : step s = exec i s := by
  rw [step_of_running hr, if_neg hip.not_ge, hd]

/-- The prologue finds a cell that is no instruction (rules R89, R111). -/
theorem step_of_decode_error {s : State} {r : Reject} (hr : s.status.reason = .running) (hip : s.ip < s.len)
    (hd : decode (s.cell s.ip) = .error r) : step s = .next (s.raise (Reject.status r)) := by
  rw [step_of_running hr, if_neg hip.not_ge, hd]

/-- Settles O19: the fetch has its two cases, the step's prologue is the fetch at `ip`, and a parameter cell is read by
`MemRead`, which grows. -/
theorem fetchPastTheEndIsExhausted : Obligations.FetchPastTheEndIsExhausted := by
  intro s
  refine ⟨fun a => ⟨fetchCell_of_le, fun hlt => ?_⟩, step_past_end, fun k hle hcap => ?_⟩
  · rw [fetchCell_of_lt hlt, State.cell_of_lt_len hlt]
  · have hread : paramRead k s = .ok (s.cell (s.ip + k)) (s.touch (s.ip + k)) :=
      memRead_of_bounds (by omega) (by omega)
    rw [State.cell_of_len_le hle] at hread
    refine ⟨_, hread, ?_, ?_⟩
    · rw [State.touch_len]; exact lt_touchLen hcap s.len
    · rw [State.touch_len]; exact (grows_touch hcap).grew

/-- Settles O20: after a completed write the cell exists, so fetch and read find what `cell_touch_store` says. -/
theorem aWriteIsSeenByTheNextFetchAndRead : Obligations.AWriteIsSeenByTheNextFetchAndRead := by
  intro a v s t h
  obtain ⟨h0, hcap, rfl⟩ := memWrite_eq_ok h
  have hlt : a.toNat < s.cfg.tapeCap := by omega
  have hcell := cell_touch_store hlt v a.toNat
  rw [if_pos rfl] at hcell
  have hexists : a.toNat < ((s.touch a.toNat).store a.toNat v).len := by simpa using lt_touchLen hlt s.len
  constructor
  · rw [fetchCell_of_lt hexists, hcell]
  · rw [memRead_of_lt_len h0 (by simpa using hcap) (by omega), hcell]

end Sys2Proof.Machine
end

section
/-! The host and the core never act at once (O45): no part of an instruction reads or changes the host's actions to
come. -/

namespace Sys2Proof.Machine

/-! ### Computations that ignore the host -/

/-- `s` with other host actions to come. -/
def State.withPending (s : State) (acts : List HostAction) : State := { s with pending := acts }

theorem State.withPending_self (s : State) : s.withPending s.pending = s := rfl

@[simp] theorem State.withPending_rb (s : State) (acts : List HostAction) : (s.withPending acts).rb = s.rb := rfl
@[simp] theorem State.withPending_inq (s : State) (acts : List HostAction) : (s.withPending acts).inq = s.inq := rfl
@[simp] theorem State.withPending_cfg (s : State) (acts : List HostAction) : (s.withPending acts).cfg = s.cfg := rfl

theorem State.touch_withPending (s : State) (acts : List HostAction) (a : Nat) :
    (s.withPending acts).touch a = (s.touch a).withPending acts := by
  rcases Nat.lt_or_ge a s.len with hlt | hge
  · rw [State.touch_of_lt_len hlt, State.touch_of_lt_len (s := s.withPending acts) hlt]
  · rw [State.touch_of_len_le hge, State.touch_of_len_le (s := s.withPending acts) hge]; rfl

/-- The result with other host actions to come. -/
def Res.withPending {α : Type} (r : Res α) (acts : List HostAction) : Res α :=
  match r with
  | .ok a s => .ok a (s.withPending acts)
  | .stop x s => .stop x (s.withPending acts)

/-- `f` neither reads the host's actions to come nor changes them. -/
def IgnoresHost {α : Type} (f : State → Res α) : Prop :=
  ∀ (s : State) (acts : List HostAction), f (s.withPending acts) = (f s).withPending acts

theorem ignoresHost_ok {α : Type} {a : α} {f : State → State}
    (hf : ∀ s acts, f (s.withPending acts) = (f s).withPending acts) : IgnoresHost fun s => .ok a (f s) :=
  fun s acts => congrArg (Res.ok a) (hf s acts)

theorem ignoresHost_stop {α : Type} (x : Status) : IgnoresHost (α := α) (.stop x) := fun _ _ => rfl

theorem IgnoresHost.bind {α β : Type} {f : State → Res α} {k : α → State → Res β} (hf : IgnoresHost f)
    (hk : ∀ a, IgnoresHost (k a)) : IgnoresHost fun s => (f s).bind k := by
  intro s acts
  simp only [hf s acts]
  cases f s with
  | ok a t => exact hk a t acts
  | stop x t => rfl

/-! ### The operations ignore the host -/

theorem checkAddress_ignoresHost (a : Int) : IgnoresHost (checkAddress a) := by
  intro s acts
  rw [checkAddress_eq, checkAddress_eq, State.withPending_cfg]
  cases addressStop s.cfg a <;> rfl

theorem memRead_ignoresHost (a : Int) : IgnoresHost (memRead a) :=
  (checkAddress_ignoresHost a).bind fun n s acts => by simp only [State.touch_withPending]; rfl

theorem memWrite_ignoresHost (a : Int) (v : Cell) : IgnoresHost (memWrite a v) :=
  (checkAddress_ignoresHost a).bind fun n s acts => by simp only [State.touch_withPending]; rfl

theorem paramRead_ignoresHost (k : Nat) : IgnoresHost (paramRead k) :=
  fun s => memRead_ignoresHost ((s.ip + k : Nat) : Int) s

theorem resolveValue_ignoresHost (m : Mode) (k : Nat) : IgnoresHost (resolveValue m k) :=
  (paramRead_ignoresHost k).bind fun p s acts => by
    rw [State.withPending_rb]
    cases valueAddress m s.rb p with
    | none => rfl
    | some a => exact memRead_ignoresHost a s acts

theorem resolveWrite_ignoresHost (m : Mode) (k : Nat) : IgnoresHost (resolveWrite m k) :=
  (paramRead_ignoresHost k).bind fun p s => checkAddress_ignoresHost (writeAddress m s.rb p) s

theorem orOverflow_ignoresHost (op : Nat) (r : Option Cell) : IgnoresHost (orOverflow op r) := by
  cases r with
  | none => exact ignoresHost_stop _
  | some v => exact ignoresHost_ok fun _ _ => rfl

theorem storeResult_ignoresHost (op : Nat) (alu : Cell → Cell → Option Cell) (m1 m2 m3 : Mode) :
    IgnoresHost (storeResult op alu m1 m2 m3) :=
  (resolveValue_ignoresHost m1 1).bind fun a =>
  (resolveValue_ignoresHost m2 2).bind fun b =>
  (resolveWrite_ignoresHost m3 3).bind fun d =>
  (orOverflow_ignoresHost op (alu a b)).bind fun r =>
  (memWrite_ignoresHost d r).bind fun _ => ignoresHost_ok fun _ _ => rfl

theorem jumpWhen_ignoresHost (test : Cell → Bool) (m1 m2 : Mode) : IgnoresHost (jumpWhen test m1 m2) :=
  (resolveValue_ignoresHost m1 1).bind fun a =>
  (resolveValue_ignoresHost m2 2).bind fun t s acts => by
    split
    · split <;> rfl
    · rfl

/-! ### Every instruction and every step of a running core ignores the host -/

/-- From `s`, `f` answers a state, and the same one whatever host actions are to come. -/
def AnswersWithoutHost (f : State → Host.Outcome State Fault Refusal) (s : State) : Prop :=
  ∃ t, f s = .next t ∧ ∀ acts, f (s.withPending acts) = .next (t.withPending acts)

theorem IgnoresHost.answers {f : State → Res Unit} (hf : IgnoresHost f) (s : State) :
    AnswersWithoutHost (fun s => (f s).outcome) s := by
  unfold AnswersWithoutHost
  simp only [hf s]
  cases f s with
  | ok _ t => exact ⟨t, rfl, fun _ => rfl⟩
  | stop x t => exact ⟨t.raise x, rfl, fun _ => rfl⟩

theorem raise_answersWithoutHost (x : Status) (s : State) : AnswersWithoutHost (fun s => .next (s.raise x)) s :=
  ⟨s.raise x, rfl, fun _ => rfl⟩

/-- The host's actions to come stay as they are. -/
theorem AnswersWithoutHost.pending_eq {f : State → Host.Outcome State Fault Refusal} {s t : State}
    (h : f s = .next t) (hacts : ∀ acts, f (s.withPending acts) = .next (t.withPending acts)) :
    t.pending = s.pending := by
  have hself := hacts s.pending
  rw [s.withPending_self, h] at hself
  have hsame : t = t.withPending s.pending := Host.Outcome.next.inj hself
  rw [hsame]; rfl

theorem execIn_answersWithoutHost (m1 : Mode) (s : State) : AnswersWithoutHost (execIn m1) s := by
  unfold AnswersWithoutHost
  simp only [execIn, State.withPending_inq]
  cases s.inq with
  | nil => exact raise_answersWithoutHost _ s
  | cons v rest =>
    have hstore (d : Nat) : IgnoresHost fun s => memWrite d v (s.setInq rest) :=
      fun s => memWrite_ignoresHost d v (s.setInq rest)
    exact ((resolveWrite_ignoresHost m1 1).bind fun d =>
      (hstore d).bind fun _ => ignoresHost_ok fun _ _ => rfl).answers s

theorem execOut_answersWithoutHost (m1 : Mode) (s : State) : AnswersWithoutHost (execOut m1) s :=
  ((resolveValue_ignoresHost m1 1).bind fun _ => ignoresHost_ok fun _ _ => rfl).answers s

theorem execArb_answersWithoutHost (m1 : Mode) (s : State) : AnswersWithoutHost (execArb m1) s :=
  ((resolveValue_ignoresHost m1 1).bind fun a s =>
    ((orOverflow_ignoresHost 9 (aluAdd s.rb a)).bind fun _ => ignoresHost_ok fun _ _ => rfl) s).answers s

theorem exec_answersWithoutHost (i : Instr) (s : State) : AnswersWithoutHost (exec i) s := by
  cases i with
  | add m1 m2 m3 => exact (storeResult_ignoresHost 1 aluAdd m1 m2 m3).answers s
  | mul m1 m2 m3 => exact (storeResult_ignoresHost 2 aluMul m1 m2 m3).answers s
  | lt m1 m2 m3 => exact (storeResult_ignoresHost 7 aluLt m1 m2 m3).answers s
  | eq m1 m2 m3 => exact (storeResult_ignoresHost 8 aluEq m1 m2 m3).answers s
  | inp m1 x2 x3 => exact execIn_answersWithoutHost m1 s
  | out m1 x2 x3 => exact execOut_answersWithoutHost m1 s
  | jt m1 m2 x3 => exact (jumpWhen_ignoresHost aluNonzero m1 m2).answers s
  | jf m1 m2 x3 => exact (jumpWhen_ignoresHost aluZero m1 m2).answers s
  | arb m1 x2 x3 => exact execArb_answersWithoutHost m1 s
  | hlt x1 x2 x3 => exact raise_answersWithoutHost _ s

/-- The prologue reads `len`, `ip` and the cell at `ip`, and the rest of the step is a stop or the instruction. -/
theorem step_answersWithoutHost {s : State} (hr : s.status.reason = .running) : AnswersWithoutHost step s := by
  rcases Nat.lt_or_ge s.ip s.len with hip | hend
  · cases hd : decode (s.cell s.ip) with
    | ok i =>
      obtain ⟨t, ht, hacts⟩ := exec_answersWithoutHost i s
      exact ⟨t, (step_of_decode_ok hr hip hd).trans ht,
        fun acts => (step_of_decode_ok (s := s.withPending acts) hr hip hd).trans (hacts acts)⟩
    | error r =>
      exact ⟨_, step_of_decode_error hr hip hd,
        fun acts => step_of_decode_error (s := s.withPending acts) hr hip hd⟩
  · exact ⟨_, step_past_end hr hend, fun acts => step_past_end (s := s.withPending acts) hr hend⟩

/-! ### The reads -/

theorem hostRead_of_len_le {s : State} {a : Nat} (h : s.len ≤ a) : hostRead a s = none := if_neg h.not_gt

theorem hostRead_of_lt_len {s : State} {a : Nat} (h : a < s.len) : hostRead a s = betweenRuns s (s.cell a) := by
  rw [hostRead, if_pos h, State.cell_of_lt_len h]

/-- Settles O45: every read goes through `betweenRuns`, and a step of a running core ignores the host. -/
theorem theHostAccessesTheTapeOnlyBetweenRuns : Obligations.TheHostAccessesTheTapeOnlyBetweenRuns := by
  intro s
  constructor
  · intro hr
    obtain ⟨t, ht, hacts⟩ := step_answersWithoutHost hr
    refine ⟨fun a => ?_, betweenRuns_of_running hr _, betweenRuns_of_running hr _, betweenRuns_of_running hr _,
      t, ht, AnswersWithoutHost.pending_eq ht hacts, hacts⟩
    rcases Nat.lt_or_ge a s.len with hlt | hge
    · rw [hostRead_of_lt_len hlt, betweenRuns_of_running hr]
    · exact hostRead_of_len_le hge
  · intro hr
    refine ⟨fun a hlt => ?_, fun a => hostRead_of_len_le, betweenRuns_of_stopped hr _, betweenRuns_of_stopped hr _,
      betweenRuns_of_stopped hr _⟩
    rw [hostRead_of_lt_len hlt, betweenRuns_of_stopped hr]

end Sys2Proof.Machine
end

section
/-! The decoder and the encoder. `Instr.fields` is the record an instruction's cell decodes to, and every fact here
goes through it: the record of a cell is the one with that decimal value, the opcode map answers an instruction exactly
on its own record, and what the opcode map rejects, it rejects by name. -/

namespace Sys2Proof

open Laws.OpcodeField (digit_le five_digits)

/-! ### The record of a cell (rules R81, R83) -/

/-- The number with the record's digits (rule R81). -/
def Fields.value (f : Fields) : Nat := f.op + 100 * f.m1 + 1000 * f.m2 + 10000 * f.m3

/-- Two digits of opcode and three single mode digits (rule R83). -/
structure Fields.InRange (f : Fields) : Prop where
  op_le : f.op ≤ 99
  m1_le : f.m1 ≤ 9
  m2_le : f.m2 ≤ 9
  m3_le : f.m3 ≤ 9

theorem Fields.inRange_iff {f : Fields} : f.InRange ↔ f.op ≤ 99 ∧ f.m1 ≤ 9 ∧ f.m2 ≤ 9 ∧ f.m3 ≤ 9 :=
  ⟨fun ⟨h0, h1, h2, h3⟩ => ⟨h0, h1, h2, h3⟩, fun ⟨h0, h1, h2, h3⟩ => ⟨h0, h1, h2, h3⟩⟩

theorem Fields.InRange.value_le {f : Fields} (h : f.InRange) : f.value ≤ 99999 :=
  five_digits (Nat.lt_succ_of_le h.op_le) h.m1_le h.m2_le h.m3_le

theorem decodeFields_eq_none {c : Cell} (h : c.toInt < 0 ∨ 99999 < c.toInt) : decodeFields c = none := if_pos h

/-- The record of a cell is the one record in range with the cell's value (rule R83). -/
theorem decodeFields_eq_some_iff {c : Cell} {f : Fields} :
    decodeFields c = some f ↔ f.InRange ∧ c.toInt = f.value := by
  obtain ⟨op, m1, m2, m3⟩ := f
  by_cases hout : c.toInt < 0 ∨ 99999 < c.toInt
  · refine iff_of_false (by simp [decodeFields_eq_none hout]) fun ⟨hr, hv⟩ => ?_
    have := hr.value_le
    omega
  · rw [decodeFields, if_neg hout, Option.some.injEq, Fields.mk.injEq]
    simp only [digit, Fields.value, Fields.inRange_iff]
    constructor <;> intro h <;> omega

theorem exists_decodeFields {c : Cell} (h0 : 0 ≤ c.toInt) (h1 : c.toInt ≤ 99999) : ∃ f, decodeFields c = some f :=
  ⟨_, if_neg (by omega)⟩

/-! ### Used mode digits (rules R84, R85) -/

theorem Mode.ofDigit_digit (m : Mode) : Mode.ofDigit m.digit = some m := by cases m <;> rfl

theorem Mode.digit_of_ofDigit {d : Nat} {m : Mode} (h : Mode.ofDigit d = some m) : m.digit = d := by
  unfold Mode.ofDigit at h
  split_ifs at h with h0 h1 h2 <;> cases h
  · exact h0.symm
  · exact h1.symm
  · exact h2.symm

theorem Mode.ofDigit_of_three_le {d : Nat} (h : 3 ≤ d) : Mode.ofDigit d = none := by
  rw [Mode.ofDigit, if_neg (by omega), if_neg (by omega), if_neg (by omega)]

section
variable {raw : Int} {f : Fields} {i : Instr}

@[simp] theorem withMode_digit (raw : Int) (m : Mode) (k : Mode → Except Reject Instr) :
    withMode raw m.digit k = k m := by
  rw [withMode, Mode.ofDigit_digit]

theorem withMode_eq_ok {d : Nat} {k : Mode → Except Reject Instr} (h : withMode raw d k = .ok i) :
    ∃ m : Mode, m.digit = d ∧ k m = .ok i := by
  unfold withMode at h
  split at h
  · next m hm => exact ⟨m, Mode.digit_of_ofDigit hm, h⟩
  · cases h

theorem withMode_illegal {d : Nat} (h : 3 ≤ d) (k : Mode → Except Reject Instr) :
    withMode raw d k = .error (.illegalMode raw) := by
  rw [withMode, Mode.ofDigit_of_three_le h]

/-- An illegal digit further on is reported as well: an illegal digit here has the same report. -/
theorem withMode_illegal_later {d : Nat} {k : Mode → Except Reject Instr}
    (h : ∀ m, k m = .error (.illegalMode raw)) : withMode raw d k = .error (.illegalMode raw) := by
  unfold withMode
  split
  · exact h _
  · rfl

theorem withModes1_illegal (h : 3 ≤ f.m1) (k : Mode → Nat → Nat → Instr) :
    withModes1 raw f k = .error (.illegalMode raw) := withMode_illegal h _

theorem withModes2_illegal (h : 3 ≤ f.m1 ∨ 3 ≤ f.m2) (k : Mode → Mode → Nat → Instr) :
    withModes2 raw f k = .error (.illegalMode raw) := by
  rcases h with h | h
  · exact withMode_illegal h _
  · exact withMode_illegal_later fun _ => withMode_illegal h _

theorem withModes3_illegal (h : 3 ≤ f.m1 ∨ 3 ≤ f.m2 ∨ 3 ≤ f.m3) (k : Mode → Mode → Mode → Instr) :
    withModes3 raw f k = .error (.illegalMode raw) := by
  rcases h with h | h | h
  · exact withMode_illegal h _
  · exact withMode_illegal_later fun _ => withMode_illegal h _
  · exact withMode_illegal_later fun _ => withMode_illegal_later fun _ => withMode_illegal h _

/-! ### The opcode map (rules R86, R88, R89) -/

/-- The record of an instruction's cell: its opcode, and its digits in parameter order, used or not. -/
def Instr.fields : Instr → Fields
  | .add m1 m2 m3 => ⟨1, m1.digit, m2.digit, m3.digit⟩
  | .mul m1 m2 m3 => ⟨2, m1.digit, m2.digit, m3.digit⟩
  | .inp m1 x2 x3 => ⟨3, m1.digit, x2, x3⟩
  | .out m1 x2 x3 => ⟨4, m1.digit, x2, x3⟩
  | .jt m1 m2 x3 => ⟨5, m1.digit, m2.digit, x3⟩
  | .jf m1 m2 x3 => ⟨6, m1.digit, m2.digit, x3⟩
  | .lt m1 m2 m3 => ⟨7, m1.digit, m2.digit, m3.digit⟩
  | .eq m1 m2 m3 => ⟨8, m1.digit, m2.digit, m3.digit⟩
  | .arb m1 x2 x3 => ⟨9, m1.digit, x2, x3⟩
  | .hlt x1 x2 x3 => ⟨99, x1, x2, x3⟩

theorem encodeNat_eq_value (i : Instr) : encodeNat i = i.fields.value := by cases i <;> rfl

theorem Instr.wellFormed_iff (i : Instr) : i.wellFormed = true ↔ i.fields.InRange := by
  cases i <;> simp [Fields.inRange_iff, Instr.fields, Instr.wellFormed, isDigit, digit_le, and_assoc]

theorem fields_of_withModes1 {op : Nat} {k : Mode → Nat → Nat → Instr} (hop : f.op = op)
    (hk : ∀ m1 x2 x3, (k m1 x2 x3).fields = ⟨op, m1.digit, x2, x3⟩) (h : withModes1 raw f k = .ok i) :
    i.fields = f := by
  obtain ⟨m1, h1, hi⟩ := withMode_eq_ok h
  cases hi
  rw [hk, h1, ← hop]

theorem fields_of_withModes2 {op : Nat} {k : Mode → Mode → Nat → Instr} (hop : f.op = op)
    (hk : ∀ m1 m2 x3, (k m1 m2 x3).fields = ⟨op, m1.digit, m2.digit, x3⟩) (h : withModes2 raw f k = .ok i) :
    i.fields = f := by
  obtain ⟨m1, h1, h⟩ := withMode_eq_ok h
  obtain ⟨m2, h2, hi⟩ := withMode_eq_ok h
  cases hi
  rw [hk, h1, h2, ← hop]

theorem fields_of_withModes3 {op : Nat} {k : Mode → Mode → Mode → Instr} (hop : f.op = op)
    (hk : ∀ m1 m2 m3, (k m1 m2 m3).fields = ⟨op, m1.digit, m2.digit, m3.digit⟩)
    (h : withModes3 raw f k = .ok i) : i.fields = f := by
  obtain ⟨m1, h1, h⟩ := withMode_eq_ok h
  obtain ⟨m2, h2, h⟩ := withMode_eq_ok h
  obtain ⟨m3, h3, hi⟩ := withMode_eq_ok h
  cases hi
  rw [hk, h1, h2, h3, ← hop]

theorem classify_fields (raw : Int) (i : Instr) : classify raw i.fields = .ok i := by
  cases i <;> simp [classify, Instr.fields, withModes1, withModes2, withModes3]

theorem fields_of_classify (h : classify raw f = .ok i) : i.fields = f := by
  unfold classify at h
  split_ifs at h with h99 h1 h2 h3 h4 h5 h6 h7 h8 h9
  · cases h
    rw [Instr.fields, ← h99]
  · exact fields_of_withModes3 h1 (fun _ _ _ => rfl) h
  · exact fields_of_withModes3 h2 (fun _ _ _ => rfl) h
  · exact fields_of_withModes1 h3 (fun _ _ _ => rfl) h
  · exact fields_of_withModes1 h4 (fun _ _ _ => rfl) h
  · exact fields_of_withModes2 h5 (fun _ _ _ => rfl) h
  · exact fields_of_withModes2 h6 (fun _ _ _ => rfl) h
  · exact fields_of_withModes3 h7 (fun _ _ _ => rfl) h
  · exact fields_of_withModes3 h8 (fun _ _ _ => rfl) h
  · exact fields_of_withModes1 h9 (fun _ _ _ => rfl) h

/-- The opcode map answers an instruction exactly on that instruction's record. -/
theorem classify_eq_ok_iff : classify raw f = .ok i ↔ i.fields = f :=
  ⟨fields_of_classify, fun h => h ▸ classify_fields raw i⟩

theorem classify_unknown (h : f.op = 0 ∨ (10 ≤ f.op ∧ f.op ≤ 98)) :
    classify raw f = .error (.unknownOpcode f.op) := by
  simp (disch := omega) only [classify, if_neg]

theorem classify_illegal1 (hop : f.op ∈ [3, 4, 9]) (h : 3 ≤ f.m1) :
    classify raw f = .error (.illegalMode raw) := by
  simp only [List.mem_cons, List.not_mem_nil, or_false] at hop
  rcases hop with hop | hop | hop <;> simp [classify, hop, withModes1_illegal h]

theorem classify_illegal2 (hop : f.op ∈ [5, 6]) (h : 3 ≤ f.m1 ∨ 3 ≤ f.m2) :
    classify raw f = .error (.illegalMode raw) := by
  simp only [List.mem_cons, List.not_mem_nil, or_false] at hop
  rcases hop with hop | hop <;> simp [classify, hop, withModes2_illegal h]

theorem classify_illegal3 (hop : f.op ∈ [1, 2, 7, 8]) (h : 3 ≤ f.m1 ∨ 3 ≤ f.m2 ∨ 3 ≤ f.m3) :
    classify raw f = .error (.illegalMode raw) := by
  simp only [List.mem_cons, List.not_mem_nil, or_false] at hop
  rcases hop with hop | hop | hop | hop <;> simp [classify, hop, withModes3_illegal h]

end

/-! ### The whole decoder -/

theorem decode_notDecimal {c : Cell} (h : c.toInt < 0 ∨ 99999 < c.toInt) :
    decode c = .error (.notDecimal c.toInt) := by
  rw [decode, decodeFields_eq_none h]

theorem decode_of_value {c : Cell} {f : Fields} (hf : f.InRange) (hc : c.toInt = f.value) :
    decode c = classify c.toInt f := by
  rw [decode, decodeFields_eq_some_iff.2 ⟨hf, hc⟩]

/-- A cell decodes to `i` exactly when `i` is well-formed and the cell holds `i`'s number. -/
theorem decode_eq_ok_iff {c : Cell} {i : Instr} :
    decode c = .ok i ↔ i.wellFormed = true ∧ c.toInt = encodeNat i := by
  rw [Instr.wellFormed_iff, encodeNat_eq_value]
  constructor
  · intro h
    by_cases hout : c.toInt < 0 ∨ 99999 < c.toInt
    · rw [decode_notDecimal hout] at h
      cases h
    · obtain ⟨f, hf⟩ := exists_decodeFields (c := c) (by omega) (by omega)
      obtain ⟨hr, hv⟩ := decodeFields_eq_some_iff.1 hf
      rw [decode_of_value hr hv, classify_eq_ok_iff] at h
      exact h ▸ ⟨hr, hv⟩
  · rintro ⟨hr, hv⟩
    rw [decode_of_value hr hv, classify_fields]

theorem toInt_encode {i : Instr} (h : i.wellFormed = true) : (encode i).toInt = encodeNat i := by
  have hle : encodeNat i ≤ 99999 := encodeNat_eq_value i ▸ (i.wellFormed_iff.1 h).value_le
  have hnat : (encode i).toNat = encodeNat i := Nat.mod_eq_of_lt (by omega)
  rw [BitVec.toInt_eq_toNat_of_lt (by omega), hnat]

/-! ### Unused digits (rule R85) -/

/-- The records have the same opcode and the same first `n` mode digits. -/
structure Fields.AgreeOn (n : Nat) (f g : Fields) : Prop where
  op_eq : f.op = g.op
  m1_eq : 1 ≤ n → f.m1 = g.m1
  m2_eq : 2 ≤ n → f.m2 = g.m2
  m3_eq : 3 ≤ n → f.m3 = g.m3

/-- The lowest `2 + n` decimal digits of a record's number are its opcode and its first `n` mode digits. -/
theorem Fields.agreeOn_of_mod {f g : Fields} (hf : f.InRange) (hg : g.InRange) {n : Nat}
    (h : f.value % 10 ^ (2 + n) = g.value % 10 ^ (2 + n)) : f.AgreeOn n g := by
  have low (k : Nat) (hk : k ≤ n) : f.value % 10 ^ (2 + k) = g.value % 10 ^ (2 + k) :=
    Nat.ModEq.of_dvd (pow_dvd_pow 10 (by omega)) h
  obtain ⟨f0, f1, f2, f3⟩ := hf
  obtain ⟨g0, g1, g2, g3⟩ := hg
  unfold Fields.value at low
  refine ⟨?_, fun hk => ?_, fun hk => ?_, fun hk => ?_⟩
  · have := low 0 (by omega); omega
  · have := low 1 hk; omega
  · have := low 2 hk; omega
  · have := low 3 hk; omega

/-- The instruction with its unused digits replaced by those of `f`. -/
def Instr.withUnusedDigits (f : Fields) : Instr → Instr
  | .add m1 m2 m3 => .add m1 m2 m3
  | .mul m1 m2 m3 => .mul m1 m2 m3
  | .inp m1 _ _ => .inp m1 f.m2 f.m3
  | .out m1 _ _ => .out m1 f.m2 f.m3
  | .jt m1 m2 _ => .jt m1 m2 f.m3
  | .jf m1 m2 _ => .jf m1 m2 f.m3
  | .lt m1 m2 m3 => .lt m1 m2 m3
  | .eq m1 m2 m3 => .eq m1 m2 m3
  | .arb m1 _ _ => .arb m1 f.m2 f.m3
  | .hlt _ _ _ => .hlt f.m1 f.m2 f.m3

theorem Instr.fields_withUnusedDigits {i : Instr} {f : Fields} (h : f.AgreeOn i.nparam i.fields) :
    (i.withUnusedDigits f).fields = f := by
  obtain ⟨op, m1, m2, m3⟩ := f
  obtain ⟨h0, h1, h2, h3⟩ := h
  cases i <;> simp_all [Instr.withUnusedDigits, Instr.fields, Instr.nparam]

theorem Machine.exec_withUnusedDigits (i : Instr) (f : Fields) (s : Machine.State) :
    Machine.exec (i.withUnusedDigits f) s = Machine.exec i s := by cases i <;> rfl

end Sys2Proof
end

section
/-! The statements about the encoding (O25 to O30). -/

namespace Sys2Proof.Machine

/-- Settles O25: the encoding holds the instruction's number, and a cell with that number decodes to it. -/
theorem decodeOfEncodeIsTheInstruction : Obligations.DecodeOfEncodeIsTheInstruction :=
  fun _ h => decode_eq_ok_iff.2 ⟨h, toInt_encode h⟩

/-- Settles O26: the cell and the encoding hold the same number. -/
theorem encodeOfDecodeIsTheCell : Obligations.EncodeOfDecodeIsTheCell := by
  intro c i h
  obtain ⟨hwf, hc⟩ := decode_eq_ok_iff.1 h
  exact ⟨hwf, BitVec.eq_of_toInt_eq ((toInt_encode hwf).trans hc.symm)⟩

/-- Settles O27, by `decodeFields_eq_some_iff` inside the range. -/
theorem decodeReadsTheDecimalDigits : Obligations.DecodeReadsTheDecimalDigits := by
  intro c
  constructor
  · intro hout
    refine ⟨decodeFields_eq_none hout, fun s hr hip hc => ?_⟩
    subst hc
    exact step_of_decode_error hr hip (decode_notDecimal hout)
  · intro h0 h1
    obtain ⟨f, hf⟩ := exists_decodeFields h0 h1
    obtain ⟨⟨hop, hm1, hm2, hm3⟩, hv⟩ := decodeFields_eq_some_iff.1 hf
    exact ⟨f, hf, hop, hm1, hm2, hm3, by simpa [Fields.value] using hv⟩

/-- Settles O28: each row of the table is a rejection of `decode`, and the prologue stops with its status. -/
theorem illegalCellsStop : Obligations.IllegalCellsStop := by
  intro s hr hip
  refine ⟨fun h => step_of_decode_error hr hip (decode_notDecimal (.inl h)),
    fun h => step_of_decode_error hr hip (decode_notDecimal (.inr h)), ?_⟩
  intro op m1 m2 m3 hop h1 h2 h3 hv
  have hd : decode (s.cell s.ip) = classify (s.cell s.ip).toInt ⟨op, m1, m2, m3⟩ :=
    decode_of_value ⟨hop, h1, h2, h3⟩ (by simpa [Fields.value] using hv)
  exact ⟨fun ho => step_of_decode_error hr hip (hd.trans (classify_unknown ho)),
    fun ho hm => step_of_decode_error hr hip (hd.trans (classify_illegal3 ho hm)),
    fun ho hm => step_of_decode_error hr hip (hd.trans (classify_illegal2 ho hm)),
    fun ho hm => step_of_decode_error hr hip (hd.trans (classify_illegal1 ho hm))⟩

/-- Settles O29: the other cell is the same instruction with its own unused digits, which no meaning reads. -/
theorem unusedModeDigitsAreIgnored : Obligations.UnusedModeDigitsAreIgnored := by
  intro c c' i h h0 h1 hmod
  obtain ⟨hwf, hc⟩ := decode_eq_ok_iff.1 h
  obtain ⟨f, hf⟩ := exists_decodeFields h0 h1
  obtain ⟨hr, hc'⟩ := decodeFields_eq_some_iff.1 hf
  rw [hc, hc', encodeNat_eq_value] at hmod
  have hagree : f.AgreeOn i.nparam i.fields :=
    Fields.agreeOn_of_mod hr (i.wellFormed_iff.1 hwf) (by exact_mod_cast hmod)
  refine ⟨i.withUnusedDigits f, ?_, exec_withUnusedDigits i f⟩
  rw [decode_of_value hr hc', classify_eq_ok_iff, Instr.fields_withUnusedDigits hagree]

/-- Settles O30, by evaluating the decoder on the twelve cells. -/
theorem theSpecsCellsDecode : Obligations.TheSpecsCellsDecode := by
  unfold Obligations.TheSpecsCellsDecode
  decide

end Sys2Proof.Machine
end

section
/-! The resolver (O21, O22, O23) and the ALU (O24). -/

namespace Sys2Proof.Machine

/-! ### The parameter cell -/

/-- A parameter cell below the capacity is read with growth (rule R114). -/
theorem paramRead_of_lt_cap {s : State} {k : Nat} (h : s.ip + k < s.cfg.tapeCap) :
    paramRead k s = .ok (s.param k) (s.touch (s.ip + k)) :=
  memRead_of_bounds (by omega) (by omega)

/-- Past its parameter cell a relative value is a `MemRead` at the exact sum (rules R115, R117). -/
theorem resolveValue_relative {s : State} {k : Nat} (h : s.ip + k < s.cfg.tapeCap) :
    resolveValue .relative k s = memRead (s.rb.toInt + (s.param k).toInt) (s.touch (s.ip + k)) := by
  rw [resolveValue, paramRead_of_lt_cap h, Res.bind, State.touch_rb]; rfl

/-- Past its parameter cell a write parameter is the address checks alone (rule R116). -/
theorem resolveWrite_of_lt_cap {s : State} {k : Nat} (h : s.ip + k < s.cfg.tapeCap) (m : Mode) :
    resolveWrite m k s = checkAddress (writeAddress m s.rb (s.param k)) (s.touch (s.ip + k)) := by
  rw [resolveWrite, paramRead_of_lt_cap h, Res.bind, State.touch_rb]

theorem checkAddress_of_addressStop {s : State} {a : Int} {x : Status} (h : addressStop s.cfg a = some x) :
    checkAddress a s = .stop x s := by rw [checkAddress_eq, h]

theorem checkAddress_of_bounds {s : State} {a : Int} (h0 : 0 ≤ a) (hcap : a < (s.cfg.tapeCap : Int)) :
    checkAddress a s = .ok a.toNat s := by rw [checkAddress_eq, addressStop_eq_none.2 ⟨h0, hcap⟩]

/-- A relative address that fails its check stops both resolvers alike, in the same state (rule R117). -/
theorem resolve_relative_stop {s : State} {k : Nat} {x : Status} (h : s.ip + k < s.cfg.tapeCap)
    (hx : addressStop s.cfg (s.rb.toInt + (s.param k).toInt) = some x) :
    ∃ t, resolveValue .relative k s = .stop x t ∧ resolveWrite .relative k s = .stop x t := by
  rw [← State.touch_cfg s (s.ip + k)] at hx
  refine ⟨s.touch (s.ip + k), ?_, ?_⟩
  · rw [resolveValue_relative h, memRead_of_addressStop hx]
  · rw [resolveWrite_of_lt_cap h, writeAddress, checkAddress_of_addressStop hx]

/-! ### The statements about the resolver -/

/-- Settles O21: `resolveValue_eq`, with the operand spelled out in each mode. -/
theorem resolveValueRule : Obligations.ResolveValueRule := by
  intro m k s
  obtain ⟨t, hg, hres⟩ := resolveValue_eq m k s
  constructor
  · intro x hx
    exact ⟨t, by rw [hres, hx], hg.grew⟩
  · intro hpass
    rw [walk_of_passes hpass] at hres
    exact ⟨s.operand m k, t, hres, hg.grew, by rintro rfl; rfl, by rintro rfl; rfl, by rintro rfl; rfl⟩

/-- Settles O22: a stop is that of `resolveWrite_eq`. Past the checks only the parameter cell was touched, and the
write repeats a check that passed. -/
theorem resolveWriteRule : Obligations.ResolveWriteRule := by
  intro m k s
  refine ⟨rfl, fun x hx => ?_, fun hpass => ?_⟩
  · obtain ⟨t, hg, hres⟩ := resolveWrite_eq m k s
    exact ⟨t, by rw [hres, hx], hg.grew⟩
  · obtain ⟨_, hparam⟩ := hpass _ List.mem_cons_self
    have hcap : s.ip + k < s.cfg.tapeCap := Int.ofNat_lt.1 hparam
    obtain ⟨haddr, hlt⟩ := target_lt_cap (walk_of_passes hpass s.len)
    have hok : resolveWrite m k s = .ok (s.target m k) (s.touch (s.ip + k)) := by
      rw [resolveWrite_of_lt_cap hcap, ← haddr, checkAddress_of_bounds] <;> simp [hlt]
    have hwrite : ∀ v, ∃ u, memWrite (s.target m k) v (s.touch (s.ip + k)) = .ok () u :=
      fun v => ⟨_, memWrite_of_bounds (Int.natCast_nonneg _) (by simpa using hlt) v⟩
    exact ⟨_, _, hok, (grows_touch hcap).grew, by rintro rfl; exact haddr, by rintro rfl; exact haddr, hwrite⟩

/-- Settles O23: two cells have a sum in the range, and the address checks fail with that sum. -/
theorem relativeAddressesAreExact : Obligations.RelativeAddressesAreExact := by
  intro k s hcap
  have hrb := cell_toInt_bounds s.rb
  have hp := cell_toInt_bounds (s.param k)
  refine ⟨by omega, rfl, rfl, rfl, rfl, fun hneg => ?_, fun hhigh => ?_⟩
  · exact resolve_relative_stop hcap (addressStop_of_neg hneg _)
  · exact resolve_relative_stop hcap (addressStop_of_cap_le (by omega) hhigh)

/-! ### The ALU -/

/-- A result in `i64` is stored unchanged (rule R118). -/
theorem narrow_of_inI64 {v : Int} (h : InI64 v) : ∃ r, narrow v = some r ∧ r.toInt = v := by
  refine ⟨_, if_pos h, ?_⟩
  rw [BitVec.toInt_ofInt]
  exact Int.bmod_eq_of_le (by omega) (by omega)

theorem narrow_of_not_inI64 {v : Int} (h : ¬ InI64 v) : narrow v = none := if_neg h

theorem toInt_ite_one_zero (p : Prop) [Decidable p] : (if p then 1 else 0 : Cell).toInt = if p then 1 else 0 := by
  split <;> rfl

/-- Settles O24: sum and product go through `narrow`; the comparisons are of the whole values. -/
theorem theAluIsExactOrOverflows : Obligations.TheAluIsExactOrOverflows := by
  intro a b op s
  refine ⟨narrow_of_inI64, narrow_of_not_inI64, narrow_of_inI64, narrow_of_not_inI64,
    ⟨_, rfl, toInt_ite_one_zero _⟩, ⟨_, rfl, ?_⟩, aluNonzero_eq_true a, aluZero_eq_true a, rfl⟩
  simp only [BitVec.toInt_inj, toInt_ite_one_zero]

end Sys2Proof.Machine
end

section
/-! The step: what it runs (O31, O32), where a completion leaves `ip` (O13), that a running core answers (O14), and the
host's turn (O35, O37). -/

namespace Sys2Proof.Machine

/-! ### The instruction at `ip` -/

/-- Settles O31: the prologue's case of a cell that decodes. -/
theorem aStepRunsTheDecodedInstruction : Obligations.AStepRunsTheDecodedInstruction :=
  fun _ _ => step_of_decode_ok

/-- Laying cells out changes only the tape. -/
theorem storeCells_eq (s : State) (a : Nat) (vs : List Cell) :
    s.storeCells a vs = { s with tape := (s.storeCells a vs).tape } := by
  induction vs generalizing s a with
  | nil => rfl
  | cons v vs ih => rw [State.storeCells, ih]; rfl

/-- Cells laid out from `a` on leave the cells before `a`. -/
theorem read_storeCells_of_lt {a b : Nat} (h : b < a) (s : State) (vs : List Cell) :
    (s.storeCells a vs).tape.read b = s.tape.read b := by
  induction vs generalizing s a with
  | nil => rfl
  | cons v vs ih => rw [State.storeCells, ih (by omega), State.store_tape, Memory.read_write, if_neg (by omega)]

theorem read_storeCells_first (s : State) (a : Nat) (v : Cell) (vs : List Cell) :
    (s.storeCells a (v :: vs)).tape.read a = v := by
  rw [State.storeCells, read_storeCells_of_lt (by omega), State.store_tape, Memory.read_write, if_pos rfl]

/-- Placing changes the tape, makes it long enough and sets Running (log 6). -/
theorem placeWord_eq (s : State) (nbits w : Nat) :
    placeWord s nbits w = { s with
      tape := (placeWord s nbits w).tape, len := max s.len (s.ip + 4),
      status := { s.status with reason := .running } } :=
  storeCells_eq _ _ _

/-- What the prologue finds after placing (log 6): a running core, a cell at `ip`, and in it the first cell of the
bits. -/
theorem placeWord_fetches (s : State) (nbits w : Nat) :
    (placeWord s nbits w).status.reason = .running ∧ (placeWord s nbits w).ip < (placeWord s nbits w).len ∧
      (placeWord s nbits w).cell (placeWord s nbits w).ip = tableCell (w % 2 ^ nbits) 0 := by
  have hip : (placeWord s nbits w).ip = s.ip := by rw [placeWord_eq]
  have hlen : (placeWord s nbits w).len = max s.len (s.ip + 4) := by rw [placeWord_eq]
  have hreason : (placeWord s nbits w).status.reason = .running := by rw [placeWord_eq]
  have hlt : s.ip < (placeWord s nbits w).len := by omega
  refine ⟨hreason, by rwa [hip], ?_⟩
  rw [hip, State.cell_of_lt_len hlt]
  exact read_storeCells_first _ _ _ _

theorem decode_of_decodeTableWord {nbits w : Nat} {i : Instr} (h : decodeTableWord nbits w = some i) :
    decode (tableCell (w % 2 ^ nbits) 0) = .ok i := by
  unfold decodeTableWord at h
  split at h
  · cases h; assumption
  · cases h

/-- Settles O32: the placed word's first cell is what the prologue fetches. -/
theorem aPlacedWordRunsNext : Obligations.APlacedWordRunsNext := by
  intro s nbits w i h
  obtain ⟨hr, hip, hcell⟩ := placeWord_fetches s nbits w
  exact step_of_decode_ok hr hip ((congrArg decode hcell).trans (decode_of_decodeTableWord h))

/-! ### A step of a running core -/

/-- Where a completion leaves `ip` (rule R119). -/
theorem Completes.ip_eq {i : Instr} {s g t : State} (h : Completes i s g t) :
    t.ip = s.ip + i.nparam + 1 ∨
      ∃ m1 m2 x3,
        ((i = .jt m1 m2 x3 ∧ (s.operand m1 1).toInt ≠ 0) ∨ (i = .jf m1 m2 x3 ∧ (s.operand m1 1).toInt = 0)) ∧
        (t.ip : Int) = (s.operand m2 2).toInt := by
  cases h with
  | jump m1 m2 x3 hi ht => exact .inr ⟨m1, m2, x3, hi, Int.toNat_of_nonneg ht⟩
  | store _ _ _ hn | input _ _ _ _ hn | output _ _ hn | fall _ hn | base _ _ hn => exact .inl (by rw [hn]; rfl)

/-- Settles O13: an instruction whose next state runs did not stop. -/
theorem completionAdvancesPastTheOperands : Obligations.CompletionAdvancesPastTheOperands := by
  intro i s t _ h ht
  obtain ⟨g, n, hg, _, _, ⟨x, hx, _, rfl⟩ | hc⟩ := exec_cases h
  · exact absurd ht hx.reason.1
  · exact ⟨hc.status_eq.trans hg.status, hc.ip_eq⟩

theorem step_running_cfg {s t : State} (hr : s.status.reason = .running) (h : step s = .next t) : t.cfg = s.cfg := by
  rcases step_cases_running hr h with ⟨x, _, _, rfl⟩ | ⟨i, _, _, hexec⟩
  · rfl
  · obtain ⟨_, _, _, _, _, hcfg, _⟩ := onlyTheNamedInstructionWrites i s t hexec
    exact hcfg

theorem step_running_pending {s t : State} (hr : s.status.reason = .running) (h : step s = .next t) :
    t.pending = s.pending := by
  obtain ⟨u, hu, hacts⟩ := step_answersWithoutHost hr
  cases h.symm.trans hu
  exact AnswersWithoutHost.pending_eq hu hacts

/-- Settles O14: the prologue and every meaning answer a state. -/
theorem aRunningCoreAlwaysAnswersAState : Obligations.ARunningCoreAlwaysAnswersAState := by
  intro s hr
  obtain ⟨t, ht, _⟩ := step_answersWithoutHost hr
  exact ⟨t, ht, step_running_cfg hr ht, step_running_pending hr ht, step_running_reason_ne_notStarted hr ht⟩

/-! ### The host's turn -/

theorem not_running_of_startable {r : StopReason} (h : r.startable = true) : r ≠ .running := by
  rintro rfl; cases h

theorem not_running_of_terminal {r : StopReason} (h : r.terminal = true) : r ≠ .running := by
  rintro rfl; cases h

theorem not_startable_of_terminal {r : StopReason} (h : r.terminal = true) : r.startable = false := by
  revert h; cases r <;> decide

/-- A core that does not run, with no host action to come, stays as it is (log 5). -/
theorem step_idle {s : State} (hr : s.status.reason ≠ .running) (hp : s.pending = []) : step s = .next s := by
  rw [step_of_not_running hr, hostStep, hp]

/-- A `run` on a terminal reason is used up and does nothing else (rules R121, R308). -/
theorem step_run_of_terminal {s : State} {batch : List Cell} {rest : List HostAction}
    (ht : s.status.reason.terminal = true) (hp : s.pending = .run batch :: rest) :
    step s = .next { s with pending := rest } := by
  rw [step_of_pending (not_running_of_terminal ht) hp, performHost,
    hostRun_of_not_startable (s := { s with pending := rest }) (not_startable_of_terminal ht)]

/-- Settles O35: the step performs the `run`, which starts the engine from a startable reason only. -/
theorem runStartsTheEngineOrDoesNothing : Obligations.RunStartsTheEngineOrDoesNothing := by
  intro s batch rest hp
  refine ⟨fun hst => ?_, fun ht => step_run_of_terminal ht hp⟩
  rw [step_of_pending (not_running_of_startable hst) hp, performHost,
    hostRun_of_startable (s := { s with pending := rest }) hst]

/-- Settles O37: each clause performs the host's next action, or none. -/
theorem theHostActsBetweenRuns : Obligations.TheHostActsBetweenRuns := by
  intro s rest hr
  refine ⟨fun a v hp hlt => ?_, fun a v hp hge => ?_, fun hp => step_of_pending hr hp, step_idle hr⟩
  · exact ⟨_, (step_of_pending hr hp).trans (if_pos hlt), rfl,
      State.cell_store (s := { s with pending := rest }) hlt v⟩
  · exact (step_of_pending hr hp).trans (if_neg hge.not_gt)

end Sys2Proof.Machine
end

section
/-! A jump to itself (O40). -/

namespace Sys2Proof.Machine

/-- A state that steps to itself stays for any number of steps. -/
theorem runFor_of_step_self {s : State} (h : step s = .next s) (n : Nat) : runFor n s = .next s := by
  induction n with
  | zero => rfl
  | succ n ih => rw [runFor_of_next h, ih]

/-- A literal whose cell exists is read without growth (rules R53, R115). -/
theorem resolveValue_immediate_of_lt_len {s : State} {k : Nat} (hlen : s.ip + k < s.len)
    (hcap : s.len ≤ s.cfg.tapeCap) : resolveValue .immediate k s = .ok (s.param k) s := by
  rw [resolveValue, paramRead_of_lt_cap (hlen.trans_le hcap), State.touch_of_lt_len hlen]; rfl

/-- A jump to a literal, on a literal that passes the test, does nothing but set `ip` (rules R170, R171). -/
theorem jumpWhen_immediate_taken {test : Cell → Bool} {s : State} (hlen : s.ip + 2 < s.len)
    (hcap : s.len ≤ s.cfg.tapeCap) (htest : test (s.param 1) = true) (htarget : 0 ≤ (s.param 2).toInt) :
    jumpWhen test .immediate .immediate s = .ok () (s.setIp (s.param 2).toInt.toNat) := by
  simp only [jumpWhen, resolveValue_immediate_of_lt_len (k := 1) (by omega) hcap,
    resolveValue_immediate_of_lt_len hlen hcap, Res.bind, if_pos htest, if_neg htarget.not_gt]

/-- Settles O40: the step sets `ip` to the value it has. -/
theorem aSelfJumpNeverStops : Obligations.ASelfJumpNeverStops := by
  intro s hr hlen hcap hcell hx htarget
  have hdecode : decode (s.cell s.ip) = .ok (.jt .immediate .immediate 0) := by rw [hcell]; decide
  have hjump := jumpWhen_immediate_taken hlen hcap ((aluNonzero_eq_true _).2 hx) (by omega)
  have hstep : step s = .next s := by
    rw [step_of_decode_ok hr (by omega) hdecode, exec, execJt, hjump, htarget]; rfl
  exact runFor_of_step_self hstep

end Sys2Proof.Machine
end

section
/-! Input that comes later. An instruction neither sees nor disturbs what is appended behind the input queue, unless it
finds the queue empty; so a run with more input goes the same way up to the first InputEmpty stop. -/

namespace Sys2Proof.Machine

/-! ### Input appended behind the queue -/

/-- `s` with the batch `q` appended to its queue, as `run` appends it (rule R120). -/
def State.feed (s : State) (q : List Cell) : State := s.setInq (s.inq ++ q)

@[simp] theorem State.feed_rb (s : State) (q : List Cell) : (s.feed q).rb = s.rb := rfl
@[simp] theorem State.feed_cfg (s : State) (q : List Cell) : (s.feed q).cfg = s.cfg := rfl

theorem State.feed_nil (s : State) : s.feed [] = s := by rw [State.feed, List.append_nil]; rfl

theorem State.feed_append (s : State) (p q : List Cell) : s.feed (p ++ q) = (s.feed p).feed q := by
  simp only [State.feed, State.setInq_inq, List.append_assoc]; rfl

theorem State.touch_feed (s : State) (q : List Cell) (a : Nat) : (s.feed q).touch a = (s.touch a).feed q := by
  rcases Nat.lt_or_ge a s.len with hlt | hge
  · rw [State.touch_of_lt_len hlt, State.touch_of_lt_len (s := s.feed q) hlt]
  · rw [State.touch_of_len_le hge, State.touch_of_len_le (s := s.feed q) hge]; rfl

/-- The result with `q` appended to the queue. -/
def Res.feed {α : Type} (r : Res α) (q : List Cell) : Res α :=
  match r with
  | .ok a s => .ok a (s.feed q)
  | .stop x s => .stop x (s.feed q)

/-- `f` neither sees nor disturbs what is appended to the queue. -/
def IgnoresFeed {α : Type} (f : State → Res α) : Prop :=
  ∀ (s : State) (q : List Cell), f (s.feed q) = (f s).feed q

theorem ignoresFeed_ok {α : Type} {a : α} {f : State → State} (hf : ∀ s q, f (s.feed q) = (f s).feed q) :
    IgnoresFeed fun s => .ok a (f s) :=
  fun s q => congrArg (Res.ok a) (hf s q)

theorem Res.feed_bind {α β : Type} (r : Res α) (q : List Cell) {k k' : α → State → Res β}
    (hk : ∀ a s, k' a (s.feed q) = (k a s).feed q) : (r.feed q).bind k' = (r.bind k).feed q := by
  cases r with
  | ok a s => exact hk a s
  | stop x s => rfl

theorem IgnoresFeed.bind {α β : Type} {f : State → Res α} {k : α → State → Res β} (hf : IgnoresFeed f)
    (hk : ∀ a, IgnoresFeed (k a)) : IgnoresFeed fun s => (f s).bind k := by
  intro s q
  simp only [hf s q]
  exact (f s).feed_bind q fun a t => hk a t q

/-! ### The operations -/

theorem checkAddress_ignoresFeed (a : Int) : IgnoresFeed (checkAddress a) := by
  intro s q
  rw [checkAddress_eq, checkAddress_eq, State.feed_cfg]
  cases addressStop s.cfg a <;> rfl

theorem memRead_ignoresFeed (a : Int) : IgnoresFeed (memRead a) :=
  (checkAddress_ignoresFeed a).bind fun n s q => by simp only [State.touch_feed]; rfl

theorem memWrite_ignoresFeed (a : Int) (v : Cell) : IgnoresFeed (memWrite a v) :=
  (checkAddress_ignoresFeed a).bind fun n s q => by simp only [State.touch_feed]; rfl

theorem paramRead_ignoresFeed (k : Nat) : IgnoresFeed (paramRead k) :=
  fun s => memRead_ignoresFeed ((s.ip + k : Nat) : Int) s

theorem resolveValue_ignoresFeed (m : Mode) (k : Nat) : IgnoresFeed (resolveValue m k) :=
  (paramRead_ignoresFeed k).bind fun p s q => by
    rw [State.feed_rb]
    cases valueAddress m s.rb p with
    | none => rfl
    | some a => exact memRead_ignoresFeed a s q

theorem resolveWrite_ignoresFeed (m : Mode) (k : Nat) : IgnoresFeed (resolveWrite m k) :=
  (paramRead_ignoresFeed k).bind fun p s => checkAddress_ignoresFeed (writeAddress m s.rb p) s

theorem orOverflow_ignoresFeed (op : Nat) (r : Option Cell) : IgnoresFeed (orOverflow op r) := by
  intro s q
  cases r <;> rfl

theorem storeResult_ignoresFeed (op : Nat) (alu : Cell → Cell → Option Cell) (m1 m2 m3 : Mode) :
    IgnoresFeed (storeResult op alu m1 m2 m3) :=
  (resolveValue_ignoresFeed m1 1).bind fun a =>
  (resolveValue_ignoresFeed m2 2).bind fun b =>
  (resolveWrite_ignoresFeed m3 3).bind fun d =>
  (orOverflow_ignoresFeed op (alu a b)).bind fun r =>
  (memWrite_ignoresFeed d r).bind fun _ => ignoresFeed_ok fun _ _ => rfl

theorem jumpWhen_ignoresFeed (test : Cell → Bool) (m1 m2 : Mode) : IgnoresFeed (jumpWhen test m1 m2) :=
  (resolveValue_ignoresFeed m1 1).bind fun _ =>
  (resolveValue_ignoresFeed m2 2).bind fun _ s q => by
    split
    · split <;> rfl
    · rfl

/-! ### Instructions and steps -/

/-- From `s`, unless it stops with InputEmpty, `f` answers with more input what it answers without, the input still to
come. -/
def AnswersAlikeFed (f : State → Host.Outcome State Fault Refusal) (s : State) : Prop :=
  ∀ t, f s = .next t → t.status.reason ≠ .inputEmpty → ∀ q, f (s.feed q) = .next (t.feed q)

theorem Res.outcome_feed {r : Res Unit} {t : State} (h : r.outcome = .next t) (q : List Cell) :
    (r.feed q).outcome = .next (t.feed q) := by
  cases r <;> cases h <;> rfl

theorem IgnoresFeed.answersAlike {f : State → Res Unit} (hf : IgnoresFeed f) (s : State) :
    AnswersAlikeFed (fun s => (f s).outcome) s :=
  fun _ ht _ q => (congrArg Res.outcome (hf s q)).trans (Res.outcome_feed ht q)

/-- IN takes the front of the queue, which is the same front with more input behind it (rule R160). -/
theorem execIn_answersAlikeFed (m1 : Mode) (s : State) : AnswersAlikeFed (execIn m1) s := by
  intro t ht hne q
  unfold execIn at ht ⊢
  cases hq : s.inq with
  | nil => rw [hq] at ht; cases ht; exact absurd rfl hne
  | cons v rest =>
    have hfed : (s.feed q).inq = v :: (rest ++ q) := by rw [State.feed, hq]; rfl
    rw [hq] at ht
    rw [hfed]
    refine (congrArg Res.outcome ?_).trans (Res.outcome_feed ht q)
    rw [resolveWrite_ignoresFeed]
    refine Res.feed_bind _ q fun d u => ?_
    exact ((memWrite_ignoresFeed d v).bind fun _ => ignoresFeed_ok fun _ _ => rfl) (u.setInq rest) q

theorem exec_answersAlikeFed (i : Instr) (s : State) : AnswersAlikeFed (exec i) s := by
  cases i with
  | add m1 m2 m3 => exact (storeResult_ignoresFeed 1 aluAdd m1 m2 m3).answersAlike s
  | mul m1 m2 m3 => exact (storeResult_ignoresFeed 2 aluMul m1 m2 m3).answersAlike s
  | lt m1 m2 m3 => exact (storeResult_ignoresFeed 7 aluLt m1 m2 m3).answersAlike s
  | eq m1 m2 m3 => exact (storeResult_ignoresFeed 8 aluEq m1 m2 m3).answersAlike s
  | inp m1 x2 x3 => exact execIn_answersAlikeFed m1 s
  | out m1 x2 x3 =>
    exact ((resolveValue_ignoresFeed m1 1).bind fun _ => ignoresFeed_ok fun _ _ => rfl).answersAlike s
  | jt m1 m2 x3 => exact (jumpWhen_ignoresFeed aluNonzero m1 m2).answersAlike s
  | jf m1 m2 x3 => exact (jumpWhen_ignoresFeed aluZero m1 m2).answersAlike s
  | arb m1 x2 x3 =>
    exact ((resolveValue_ignoresFeed m1 1).bind fun a s =>
      ((orOverflow_ignoresFeed 9 (aluAdd s.rb a)).bind fun _ => ignoresFeed_ok fun _ _ => rfl) s).answersAlike s
  | hlt x1 x2 x3 => intro t ht _ q; cases ht; rfl

/-- The prologue reads `len`, `ip` and the cell at `ip`, and the rest of the step is a stop or the instruction. -/
theorem step_answersAlikeFed {s : State} (hr : s.status.reason = .running) : AnswersAlikeFed step s := by
  intro t ht hne q
  rcases Nat.lt_or_ge s.ip s.len with hip | hend
  · cases hd : decode (s.cell s.ip) with
    | ok i =>
      rw [step_of_decode_ok hr hip hd] at ht
      exact (step_of_decode_ok (s := s.feed q) hr hip hd).trans (exec_answersAlikeFed i s t ht hne q)
    | error r =>
      rw [step_of_decode_error hr hip hd] at ht; cases ht
      exact step_of_decode_error (s := s.feed q) hr hip hd
  · rw [step_past_end hr hend] at ht; cases ht
    exact step_past_end (s := s.feed q) hr hend

end Sys2Proof.Machine
end

section
/-! Suspending and resuming (O41, O42): a running core goes on as it would with more input up to its first stop, and a
`run` after an InputEmpty stop gives the very state that the core with more input is in. -/

namespace Sys2Proof.Machine

/-! ### The first stop of a run -/

theorem startable_of_not_terminal {r : StopReason} (hr : r ≠ .running) (ht : r.terminal ≠ true) :
    r.startable = true := by
  revert hr ht; cases r <;> decide

/-- A step of a running core leaves the status register, stops with InputEmpty before it changed anything, or stops
terminally (rules R112, R160, R301). -/
theorem step_running_status {s t : State} (hr : s.status.reason = .running) (h : step s = .next t) :
    t.status = s.status ∨ t = s.raise { reason := .inputEmpty, info := 0 } ∨ t.status.reason.terminal = true := by
  rcases step_cases_running hr h with ⟨x, hterm, _, rfl⟩ | ⟨i, _, _, hexec⟩
  · exact .inr (.inr hterm)
  obtain ⟨g, n, hg, _, _, ⟨⟨r, info⟩, hx, hempty, rfl⟩ | hc⟩ := exec_cases hexec
  · by_cases hterm : r.terminal = true
    · exact .inr (.inr hterm)
    · obtain ⟨hnr, hns⟩ := hx.reason
      obtain rfl : r = .inputEmpty :=
        ((StopReason.startable_iff r).1 (startable_of_not_terminal hnr hterm)).resolve_left hns
      obtain rfl : info = 0 := hx.zero rfl
      obtain ⟨rfl, _, _⟩ := hempty rfl
      exact .inr (.inl rfl)
  · exact .inl (hc.status_eq.trans hg.status)

/-- The status of a running core that a start or a resumption gives (rules R112, R120). -/
def Status.started : Status := { reason := .running, info := 0 }

theorem Status.started_reason {x : Status} (h : x = Status.started) : x.reason = .running := by rw [h]; rfl

/-- A step that does not stop with InputEmpty is the same with other host actions to come and more input. -/
theorem step_withPending_feed {s t : State} (hr : s.status.reason = .running) (h : step s = .next t)
    (hne : t.status.reason ≠ .inputEmpty) (acts : List HostAction) (q : List Cell) :
    step ((s.withPending acts).feed q) = .next ((t.withPending acts).feed q) := by
  obtain ⟨u, hu, hacts⟩ := step_answersWithoutHost hr
  cases h.symm.trans hu
  exact step_answersAlikeFed (s := s.withPending acts) hr _ (hacts acts) hne q

/-- From `a` the core runs to `c` and there stops into `d`; with other host actions to come and more input it runs to
the same `c`, in the same number of steps. -/
structure FirstStop (a c d : State) : Prop where
  status : c.status = Status.started
  pending : c.pending = a.pending
  stops : step c = .next d
  stopped : d.status.reason ≠ .running
  alike : ∃ m, ∀ acts q k,
    runFor (m + k) ((a.withPending acts).feed q) = runFor k ((c.withPending acts).feed q)

/-- One step before the first stop. -/
theorem FirstStop.cons {a u c d : State} (hr : a.status.reason = .running) (hu : step a = .next u)
    (hne : u.status.reason ≠ .inputEmpty) (h : FirstStop u c d) : FirstStop a c d := by
  obtain ⟨m, hm⟩ := h.alike
  refine ⟨h.status, h.pending.trans (step_running_pending hr hu), h.stops, h.stopped, m + 1, fun acts q k => ?_⟩
  rw [Nat.add_right_comm, runFor_of_next (step_withPending_feed hr hu hne acts q), hm]

/-- A started core that is found stopped has had a first stop, from which it came there. -/
theorem exists_firstStop {n : Nat} {a t : State} (ha : a.status = Status.started) (h : runFor n a = .next t)
    (ht : t.status.reason ≠ .running) : ∃ c d r, FirstStop a c d ∧ runFor r d = .next t := by
  have hr := Status.started_reason ha
  induction n generalizing a with
  | zero => cases h; exact absurd hr ht
  | succ n ih =>
    obtain ⟨u, hu, hrun⟩ := runFor_succ_next h
    by_cases hur : u.status.reason = .running
    · have hsame : u.status = a.status := by
        rcases step_running_status hr hu with hsame | rfl | hterm
        · exact hsame
        · cases hur
        · exact absurd hur (not_running_of_terminal hterm)
      obtain ⟨c, d, r, hstop, hrest⟩ := ih (hsame.trans ha) hrun hur
      exact ⟨c, d, r, hstop.cons hr hu (by rw [hur]; decide), hrest⟩
    · exact ⟨a, u, n, ⟨ha, rfl, hu, hur, 0, fun _ _ k => by rw [Nat.zero_add]⟩, hrun⟩

/-- The first stop is with InputEmpty, before the step changed anything, or terminal. -/
theorem FirstStop.inputEmpty_or_terminal {a c d : State} (h : FirstStop a c d) :
    d = c.raise { reason := .inputEmpty, info := 0 } ∨ d.status.reason.terminal = true := by
  have hr := Status.started_reason h.status
  refine (step_running_status hr h.stops).resolve_left fun hsame => h.stopped ?_
  rw [hsame, hr]

/-- A core without host actions to come, whose first stop was at `d`, is found at `d`. -/
theorem FirstStop.eq_of_idle {a c d t : State} {r : Nat} (h : FirstStop a c d) (hp : a.pending = [])
    (hrest : runFor r d = .next t) : t = d := by
  have hdp : d.pending = [] :=
    (step_running_pending (Status.started_reason h.status) h.stops).trans (h.pending.trans hp)
  rw [runFor_of_step_self (step_idle h.stopped hdp) r] at hrest
  exact (Host.Outcome.next.inj hrest).symm

/-! ### Resuming -/

theorem State.withPending_of_eq {s : State} {acts : List HostAction} (h : s.pending = acts) :
    s.withPending acts = s := by rw [← h]; rfl

theorem hostRun_withPending (q : List Cell) (s : State) (acts : List HostAction) :
    hostRun q (s.withPending acts) = (hostRun q s).withPending acts := by
  unfold hostRun
  rw [apply_ite (State.withPending · acts)]; rfl

theorem step_run {s : State} {batch : List Cell} {rest : List HostAction} (hr : s.status.reason ≠ .running)
    (hp : s.pending = .run batch :: rest) : step s = .next (hostRun batch (s.withPending rest)) :=
  step_of_pending hr hp

/-- The resumption undoes the stop and brings the input (rules R120, R307). -/
theorem hostRun_raise_inputEmpty {s : State} (hs : s.status = Status.started) (q : List Cell) :
    hostRun q (s.raise { reason := .inputEmpty, info := 0 }) = s.feed q := by
  rw [hostRun_of_startable rfl]
  exact State.ext_fields rfl rfl rfl rfl hs.symm rfl rfl rfl rfl

/-- An InputEmpty stop with a `run` to come steps to the state that went on with the batch (rules R120, R307). -/
theorem step_resume {s : State} {batch : List Cell} {rest : List HostAction} (hs : s.status = Status.started)
    (hp : s.pending = .run batch :: rest) :
    step (s.raise { reason := .inputEmpty, info := 0 }) = .next ((s.withPending rest).feed batch) := by
  rw [step_run (s := s.raise { reason := .inputEmpty, info := 0 }) nofun hp]
  exact congrArg Host.Outcome.next (hostRun_raise_inputEmpty (s := s.withPending rest) hs batch)

/-- A start with more input is the start with the first of it, and the rest appended. -/
theorem hostRun_append {s : State} (hs : s.status.reason.startable = true) (p q : List Cell) :
    hostRun (p ++ q) s = (hostRun p s).feed q := by
  rw [hostRun_of_startable hs, hostRun_of_startable hs, State.feed, List.append_assoc]; rfl

theorem hostRun_status {s : State} (hs : s.status.reason.startable = true) (hinfo : s.status.info = 0)
    (q : List Cell) : (hostRun q s).status = Status.started := by
  rw [hostRun_of_startable hs]
  exact congrArg (Status.mk .running) hinfo

/-- Settles O41: the run of `first` has its first stop at `t`, one step past `c`, and resuming `t` gives `c` with
`second` appended, which the one run passes through. -/
theorem resumptionIsInvisible : Obligations.ResumptionIsInvisible := by
  intro s t first second n hs hinfo hp h ht
  obtain ⟨c, d, r, hstop, hrest⟩ := exists_firstStop (hostRun_status hs hinfo first) h (by rw [ht]; decide)
  have hap : (hostRun first s).pending = [] := by rw [hostRun_pending, hp]
  obtain rfl := hstop.eq_of_idle hap hrest
  obtain rfl : t = c.raise { reason := .inputEmpty, info := 0 } :=
    hstop.inputEmpty_or_terminal.resolve_right fun hterm => not_inputEmpty_of_terminal hterm ht
  obtain ⟨m, hm⟩ := hstop.alike
  refine ⟨m, fun k => ?_⟩
  have halike := hm [] second k
  rw [hostRun_append hs, hostRun_raise_inputEmpty hstop.status]
  rwa [State.withPending_of_eq hap, State.withPending_of_eq (hstop.pending.trans hap)] at halike

/-! ### Any number of batches -/

/-- A terminal core uses up the `run`s to come and does nothing else (rule R308). -/
theorem runFor_of_terminal {n : Nat} {s : State} (ht : s.status.reason.terminal = true)
    (hp : ∀ act ∈ s.pending, ∃ batch, act = .run batch) :
    runFor n s = .next (s.withPending (s.pending.drop n)) := by
  induction n generalizing s with
  | zero => rfl
  | succ n ih =>
    cases hs : s.pending with
    | nil =>
      rw [runFor_of_step_self (step_idle (not_running_of_terminal ht) hs), List.drop_nil, ← hs]; rfl
    | cons act rest =>
      rw [hs, List.forall_mem_cons] at hp
      obtain ⟨⟨batch, rfl⟩, hrest⟩ := hp
      rw [runFor_of_next (step_run_of_terminal ht hs), ih (s := { s with pending := rest }) ht hrest]; rfl

/-- A core whose first stop is terminal comes to the same rest when all its input is given at once. -/
theorem FirstStop.alike_of_terminal {a c d t : State} {r : Nat} (h : FirstStop a c d)
    (hterm : d.status.reason.terminal = true) (hruns : ∀ act ∈ a.pending, ∃ batch, act = .run batch)
    (hrest : runFor r d = .next t) (htp : t.pending = []) (input : List Cell) :
    ∃ k q, runFor k ((a.withPending []).feed input) = .next (t.setInq q) := by
  have hr := Status.started_reason h.status
  have hdp : d.pending = a.pending := (step_running_pending hr h.stops).trans h.pending
  rw [runFor_of_terminal hterm (by rwa [hdp])] at hrest
  cases hrest
  have hused : d.pending.drop r = [] := htp
  obtain ⟨m, hm⟩ := h.alike
  have hstep := step_withPending_feed hr h.stops (not_inputEmpty_of_terminal hterm) [] input
  refine ⟨m + 1, d.inq ++ input, ?_⟩
  rw [hm, runFor_of_next hstep, hused]
  rfl

/-- A started core with runs to come that comes to rest at `t`: given all their input at once it comes to rest at `t`
too, but for the input left over. -/
theorem runFor_flatten (batches : List (List Cell)) {n : Nat} {a t : State} (ha : a.status = Status.started)
    (hp : a.pending = batches.map .run) (h : runFor n a = .next t) (htp : t.pending = [])
    (ht : t.status.reason ≠ .running) :
    ∃ k q, runFor k ((a.withPending []).feed batches.flatten) = .next (t.setInq q) := by
  induction batches generalizing n a with
  | nil =>
    obtain ⟨c, d, r, hstop, hrest⟩ := exists_firstStop ha h ht
    obtain rfl := hstop.eq_of_idle hp hrest
    obtain ⟨m, hm⟩ := hstop.alike
    refine ⟨m + 1, t.inq, ?_⟩
    rw [hm, List.flatten_nil, State.feed_nil, State.withPending_of_eq (acts := []) (hstop.pending.trans hp),
      runFor_of_next hstop.stops]
    rfl
  | cons b bs ih =>
    obtain ⟨c, d, r, hstop, hrest⟩ := exists_firstStop ha h ht
    rcases hstop.inputEmpty_or_terminal with rfl | hterm
    · have hcp : c.pending = .run b :: bs.map .run := hstop.pending.trans hp
      cases r with
      | zero => cases hrest; cases hcp.symm.trans htp
      | succ r =>
        rw [runFor_of_next (step_resume hstop.status hcp)] at hrest
        obtain ⟨k, q, hk⟩ := ih (a := (c.withPending (bs.map .run)).feed b) hstop.status rfl hrest
        obtain ⟨m, hm⟩ := hstop.alike
        exact ⟨m + k, q, by rw [hm, List.flatten_cons, State.feed_append]; exact hk⟩
    · exact hstop.alike_of_terminal hterm (by simp [hp]) hrest htp _

/-- Settles O42: the first `run` starts both cores, with the first batch and with all of them, and from there
`runFor_flatten` brings the second to rest. -/
theorem anySplitOfTheInputGivesTheSameRun : Obligations.AnySplitOfTheInputGivesTheSameRun := by
  intro s t batches n hne hs hinfo hp h htp ht
  obtain ⟨b, bs, rfl⟩ := List.exists_cons_of_ne_nil hne
  cases n with
  | zero => cases h; cases hp.symm.trans htp
  | succ n =>
    have hnr := not_running_of_startable hs
    rw [runFor_of_next (step_run hnr hp)] at h
    obtain ⟨k, q, hk⟩ := runFor_flatten bs (hostRun_status (s := s.withPending (bs.map .run)) hs hinfo b)
      (hostRun_pending _ _) h htp ht
    have hone : step (s.withPending [.run (b :: bs).flatten]) = .next (hostRun (b ++ bs.flatten) (s.withPending [])) :=
      step_run (s := s.withPending [.run (b :: bs).flatten]) hnr rfl
    refine ⟨k + 1, t.setInq q, (runFor_of_next hone k).trans ?_, htp, rfl, rfl, rfl, rfl, rfl, rfl⟩
    rw [hostRun_withPending] at hk ⊢
    rwa [hostRun_append hs]

end Sys2Proof.Machine
end

section
/-! The instructions that store a result (ADD, MUL, LT and EQ, whose meaning is `storeResult`), and the statements about
ADD and MUL (O1, O2). -/

namespace Sys2Proof.Machine

/-! ### Storing a result -/

/-- The write and the advance of `ip` after growth: one cell changes, the tape grows for it, and all else stays. -/
theorem Grows.store_setIp {s g : State} {n d : Nat} (hg : Grows s g n) (hd : d < s.cfg.tapeCap) (r : Cell) (a : Nat) :
    ((g.touch d).store d r).setIp a =
        { s with tape := (((g.touch d).store d r).setIp a).tape, len := touchLen s.cfg n d, ip := a } ∧
      ∀ b, (((g.touch d).store d r).setIp a).cell b = if b = d then r else s.cell b := by
  constructor
  · apply State.ext_fields <;> simp [hg.len, hg.rb, hg.status, hg.inq, hg.outlog, hg.cfg, hg.pending]
  · intro b
    rw [← hg.cells b]
    exact cell_touch_store (by rwa [hg.cfg]) r b

/-- Where the accesses of a storing instruction pass, its target lies below the capacity. -/
theorem target_lt_cap_of_passes {m1 m2 m3 : Mode} {s : State} (hpass : Passes s (storeAccesses m1 m2 m3 s)) :
    s.target m3 3 < s.cfg.tapeCap :=
  (target_lt_cap (len := s.len) (walk_of_passes (fun x hx => hpass x (List.mem_append_right _ hx)) _)).2

section
variable {i : Instr} {op : Nat} {alu : Cell → Cell → Option Cell} {m1 m2 m3 : Mode} {s : State}
  (hi : exec i s = (storeResult op alu m1 m2 m3 s).outcome)
include hi

/-- A storing instruction stops at its first bad access (rules R113, R304). -/
theorem stopsAtFirstBadAccess_of_storeResult : StopsAtFirstBadAccess i s (storeAccesses m1 m2 m3 s) := by
  intro x hx
  obtain ⟨g, hg, hres⟩ := storeResult_eq op alu m1 m2 m3 s
  rw [hx] at hres
  exact ⟨g.raise x, by rw [hi, hres]; rfl, hg.raise x⟩

/-- A storing instruction whose ALU has no result stops with Overflow and its opcode (rule R118). -/
theorem stopsWith_overflow_of_storeResult (hpass : Passes s (storeAccesses m1 m2 m3 s))
    (halu : alu (s.operand m1 1) (s.operand m2 2) = none) :
    StopsWith i s { reason := .overflow, info := op } (s.lenAfter (storeAccesses m1 m2 m3 s)) := by
  obtain ⟨g, hg, hres⟩ := storeResult_eq op alu m1 m2 m3 s
  rw [walk_of_passes hpass, halu] at hres
  exact ⟨g.raise _, by rw [hi, hres]; rfl, hg.raise _⟩

/-- A storing instruction stores its ALU's result at its target and moves on (rules R113, R119). -/
theorem storesAndAdvances_of_storeResult (hpass : Passes s (storeAccesses m1 m2 m3 s)) {r : Cell}
    (halu : alu (s.operand m1 1) (s.operand m2 2) = some r) :
    StoresAndAdvances i s (storeAccesses m1 m2 m3 s) (s.target m3 3) r.toInt := by
  obtain ⟨g, hg, hres⟩ := storeResult_eq op alu m1 m2 m3 s
  rw [walk_of_passes hpass, halu] at hres
  obtain ⟨hframe, hcell⟩ := hg.store_setIp (target_lt_cap_of_passes hpass) r (s.ip + 4)
  exact ⟨_, by rw [hi, hres]; rfl, hframe, by rw [hcell, if_pos rfl], fun a ha => by rw [hcell, if_neg ha]⟩

/-- A storing instruction whose ALU narrows the exact result `v` (rule R118) stops with Overflow where `v` is outside
`i64`. -/
theorem stopsWith_overflow_of_narrow {v : Int} (halu : alu (s.operand m1 1) (s.operand m2 2) = narrow v)
    (hpass : Passes s (storeAccesses m1 m2 m3 s)) (hv : ¬ InI64 v) :
    StopsWith i s { reason := .overflow, info := op } (s.lenAfter (storeAccesses m1 m2 m3 s)) :=
  stopsWith_overflow_of_storeResult hi hpass (halu.trans (narrow_of_not_inI64 hv))

/-- A storing instruction whose ALU narrows the exact result `v` stores `v` itself where it is in `i64`. -/
theorem storesAndAdvances_of_narrow {v : Int} (halu : alu (s.operand m1 1) (s.operand m2 2) = narrow v)
    (hpass : Passes s (storeAccesses m1 m2 m3 s)) (hv : InI64 v) :
    StoresAndAdvances i s (storeAccesses m1 m2 m3 s) (s.target m3 3) v := by
  obtain ⟨r, hr, rfl⟩ := narrow_of_inI64 hv
  exact storesAndAdvances_of_storeResult hi hpass (halu.trans hr)

end

/-! ### ADD and MUL -/

/-- Settles O1: ADD stores through `aluAdd`, which narrows the exact sum. -/
theorem addStoresTheExactSum : Obligations.AddStoresTheExactSum := by
  intro m1 m2 m3 s
  have hexec : exec (.add m1 m2 m3) s = (storeResult 1 aluAdd m1 m2 m3 s).outcome := rfl
  refine ⟨?_, stopsAtFirstBadAccess_of_storeResult hexec, stopsWith_overflow_of_narrow hexec rfl,
    storesAndAdvances_of_narrow hexec rfl⟩
  rw [toInt_encode rfl, encodeNat]; push_cast; rfl

/-- Settles O2: MUL stores through `aluMul`, which narrows the exact product. -/
theorem mulStoresTheExactProduct : Obligations.MulStoresTheExactProduct := by
  intro m1 m2 m3 s
  have hexec : exec (.mul m1 m2 m3) s = (storeResult 2 aluMul m1 m2 m3 s).outcome := rfl
  refine ⟨?_, stopsAtFirstBadAccess_of_storeResult hexec, stopsWith_overflow_of_narrow hexec rfl,
    storesAndAdvances_of_narrow hexec rfl⟩
  rw [toInt_encode rfl, encodeNat]; push_cast; rfl

end Sys2Proof.Machine
end

section
/-! IN and OUT (spec/42_io.md): their cases, and the statements about them (O5, O6). -/

namespace Sys2Proof.Machine

/-! ### Growth beside the queue, the log and `ip` -/

/-- The queue plays no part in growth. -/
theorem Grows.setInq {s t : State} {n : Nat} (h : Grows s t n) (q : List Cell) : Grows (s.setInq q) (t.setInq q) n where
  grew := ⟨congrArg (·.setInq q) h.grew.1, h.cells⟩
  wf := h.wf
  keys := h.keys

/-- The log plays no part in growth. -/
theorem Grows.appendOut {s t : State} {n : Nat} (h : Grows s t n) (v : Cell) :
    Grows (s.appendOut v) (t.appendOut v) n where
  grew := ⟨congrArg (·.appendOut v) h.grew.1, h.cells⟩
  wf := h.wf
  keys := h.keys

/-- The advance of `ip` after growth: every cell reads as before, and all else but `len` stays. -/
theorem Grows.setIp {s g : State} {n : Nat} (h : Grows s g n) (a : Nat) :
    g.setIp a = { s with tape := (g.setIp a).tape, len := n, ip := a } ∧ ∀ b, (g.setIp a).cell b = s.cell b :=
  ⟨congrArg (·.setIp a) h.grew.1, h.cells⟩

/-! ### The cases of IN and OUT -/

/-- IN on an empty queue (rule R160): the stop comes before any access. -/
theorem execIn_of_nil {s : State} (hq : s.inq = []) (m : Mode) :
    execIn m s = .next (s.raise { reason := .inputEmpty, info := 0 }) := by
  unfold execIn; rw [hq]

/-- IN on a queue with a front (rule R160): the first stop of its accesses, else the pop, the one write and the advance
of `ip`. -/
theorem execIn_of_cons {s : State} {v : Cell} {rest : List Cell} (hq : s.inq = v :: rest) (m : Mode) :
    ∃ g, Grows s g (s.lenAfter (writeAccesses m 1 s)) ∧
      execIn m s = .next (match (walk s.cfg s.len (writeAccesses m 1 s)).1 with
        | some x => g.raise x
        | none => (((g.setInq rest).touch (s.target m 1)).store (s.target m 1) v).setIp (s.ip + 2)) := by
  obtain ⟨g, hg, hres⟩ := resolveWrite_eq m 1 s
  refine ⟨g, hg, ?_⟩
  unfold execIn
  rw [hq, hres]
  cases hw : (walk s.cfg s.len (writeAccesses m 1 s)).1 with
  | some x => rfl
  | none =>
    have hd := (target_lt_cap hw).2
    have hn : addressStop (g.setInq rest).cfg (s.target m 1 : Int) = none :=
      addressStop_eq_none.2 (by rw [State.setInq_cfg, hg.cfg]; omega)
    simp only [Res.bind, Res.outcome, memWrite_eq, hn, Int.toNat_natCast, State.store_ip, State.touch_ip,
      State.setInq_ip, hg.ip]

/-- OUT, all cases (rule R161): the first stop of its accesses, else the append and the advance of `ip`. -/
theorem execOut_eq (m : Mode) (s : State) :
    ∃ g, Grows s g (s.lenAfter (valueAccesses m 1 s)) ∧
      execOut m s = .next (match (walk s.cfg s.len (valueAccesses m 1 s)).1 with
        | some x => g.raise x
        | none => (g.appendOut (s.operand m 1)).setIp (s.ip + 2)) := by
  obtain ⟨g, hg, hres⟩ := resolveValue_eq m 1 s
  refine ⟨g, hg, ?_⟩
  unfold execOut
  rw [hres]
  cases (walk s.cfg s.len (valueAccesses m 1 s)).1 with
  | some x => rfl
  | none => simp only [Res.bind, Res.outcome, hg.ip]

/-! ### IN and OUT -/

/-- The well-formedness of an instruction with two unused digits. -/
theorem unusedDigits_wellFormed {x2 x3 : Nat} (h2 : x2 ≤ 9) (h3 : x3 ≤ 9) : (isDigit x2 && isDigit x3) = true :=
  Bool.and_eq_true_iff.2 ⟨decide_eq_true h2, decide_eq_true h3⟩

/-- Settles O5: `execIn_of_nil` on an empty queue, the two cases of `execIn_of_cons` on any other. The growth comes
before the pop, so the write's frame (`Grows.store_setIp`) is taken over the state with the queue popped. -/
theorem inTakesTheFrontOfTheQueue : Obligations.InTakesTheFrontOfTheQueue := by
  intro m1 x2 x3 s
  refine ⟨fun h2 h3 => ?_, fun hq => execIn_of_nil hq m1, fun v rest hq => ?_⟩
  · rw [toInt_encode (i := .inp m1 x2 x3) (unusedDigits_wellFormed h2 h3), encodeNat]; push_cast; rfl
  obtain ⟨g, hg, hexec⟩ := execIn_of_cons hq m1
  constructor
  · intro x hx
    rw [hx] at hexec
    exact ⟨g.raise x, hexec, hg.raise x⟩
  · intro hpass
    have hw := walk_of_passes hpass s.len
    rw [hw] at hexec
    obtain ⟨hframe, hcell⟩ := (hg.setInq rest).store_setIp (target_lt_cap hw).2 v (s.ip + 2)
    exact ⟨_, hexec, hframe, (hcell _).trans (if_pos rfl), fun a ha => (hcell a).trans (if_neg ha)⟩

/-- Settles O6: the two cases of `execOut_eq`. -/
theorem outAppendsItsOperand : Obligations.OutAppendsItsOperand := by
  intro m1 x2 x3 s
  obtain ⟨g, hg, hexec⟩ := execOut_eq m1 s
  refine ⟨fun h2 h3 => ?_, fun x hx => ?_, fun hpass => ?_⟩
  · rw [toInt_encode (i := .out m1 x2 x3) (unusedDigits_wellFormed h2 h3), encodeNat]; push_cast; rfl
  · rw [hx] at hexec
    exact ⟨g.raise x, hexec, hg.raise x⟩
  · rw [walk_of_passes hpass] at hexec
    exact ⟨_, hexec, (hg.appendOut (s.operand m1 1)).setIp (s.ip + 2)⟩

end Sys2Proof.Machine
end

section
/-! JT and JF (spec/43_jump.md), whose meaning is `jumpWhen`, and the statements about them (O7, O8). -/

namespace Sys2Proof.Machine

/-! ### Jumping on a test -/

section
variable {i : Instr} {test : Cell → Bool} {m1 m2 : Mode} {s : State}
  (hi : exec i s = (jumpWhen test m1 m2 s).outcome)
include hi

/-- A jump stops at its first bad access, taken or not (rules R113, R304). -/
theorem stopsAtFirstBadAccess_of_jumpWhen : StopsAtFirstBadAccess i s (jumpAccesses m1 m2 s) := by
  intro x hx
  obtain ⟨g, hg, hres⟩ := jumpWhen_eq test m1 m2 s
  rw [hx] at hres
  exact ⟨g.raise x, by rw [hi, hres]; rfl, hg.raise x⟩

/-- A jump taken to a negative target stops with the target (rule R302). -/
theorem stopsWith_negativeAddress_of_jumpWhen (hpass : Passes s (jumpAccesses m1 m2 s))
    (htest : test (s.operand m1 1) = true) (hneg : (s.operand m2 2).toInt < 0) :
    StopsWith i s { reason := .negativeAddress, info := (s.operand m2 2).toInt }
      (s.lenAfter (jumpAccesses m1 m2 s)) := by
  obtain ⟨g, hg, hres⟩ := jumpWhen_eq test m1 m2 s
  simp only [walk_of_passes hpass, if_pos htest, if_pos hneg] at hres
  exact ⟨g.raise _, by rw [hi, hres]; rfl, hg.raise _⟩

/-- A jump taken to any other target goes there (rules R119, R170, R171). -/
theorem jumps_target_of_jumpWhen (hpass : Passes s (jumpAccesses m1 m2 s))
    (htest : test (s.operand m1 1) = true) (hnonneg : 0 ≤ (s.operand m2 2).toInt) :
    Jumps i s (jumpAccesses m1 m2 s) (s.operand m2 2).toInt.toNat := by
  obtain ⟨g, hg, hres⟩ := jumpWhen_eq test m1 m2 s
  simp only [walk_of_passes hpass, if_pos htest, if_neg hnonneg.not_gt] at hres
  exact ⟨_, by rw [hi, hres]; rfl, hg.setIp _⟩

/-- A jump not taken falls through, whatever its target (rules R119, R170, R171). -/
theorem jumps_fallthrough_of_jumpWhen (hpass : Passes s (jumpAccesses m1 m2 s))
    (htest : ¬ test (s.operand m1 1) = true) : Jumps i s (jumpAccesses m1 m2 s) (s.ip + 3) := by
  obtain ⟨g, hg, hres⟩ := jumpWhen_eq test m1 m2 s
  simp only [walk_of_passes hpass, if_neg htest] at hres
  exact ⟨_, by rw [hi, hres]; rfl, hg.setIp _⟩

end

/-! ### JT and JF -/

/-- Settles O7: JT jumps on `aluNonzero`, which says that the operand's value is not 0. -/
theorem jtJumpsWhenNonzero : Obligations.JtJumpsWhenNonzero := by
  intro m1 m2 x3 s
  have hexec : exec (.jt m1 m2 x3) s = (jumpWhen aluNonzero m1 m2 s).outcome := rfl
  have htest := aluNonzero_eq_true (s.operand m1 1)
  refine ⟨fun h3 => ?_, stopsAtFirstBadAccess_of_jumpWhen hexec, fun hpass => ⟨fun hne hneg => ?_,
    fun hne hnonneg => ?_, fun hzero => ?_⟩⟩
  · rw [toInt_encode (i := .jt m1 m2 x3) (decide_eq_true h3), encodeNat]; push_cast; rfl
  · exact stopsWith_negativeAddress_of_jumpWhen hexec hpass (htest.2 hne) hneg
  · exact jumps_target_of_jumpWhen hexec hpass (htest.2 hne) hnonneg
  · exact jumps_fallthrough_of_jumpWhen hexec hpass fun hne => htest.1 hne hzero

/-- Settles O8: JF jumps on `aluZero`, which says that the operand's value is 0. -/
theorem jfJumpsWhenZero : Obligations.JfJumpsWhenZero := by
  intro m1 m2 x3 s
  have hexec : exec (.jf m1 m2 x3) s = (jumpWhen aluZero m1 m2 s).outcome := rfl
  have htest := aluZero_eq_true (s.operand m1 1)
  refine ⟨fun h3 => ?_, stopsAtFirstBadAccess_of_jumpWhen hexec, fun hpass => ⟨fun hzero hneg => ?_,
    fun hzero hnonneg => ?_, fun hne => ?_⟩⟩
  · rw [toInt_encode (i := .jf m1 m2 x3) (decide_eq_true h3), encodeNat]; push_cast; rfl
  · exact stopsWith_negativeAddress_of_jumpWhen hexec hpass (htest.2 hzero) hneg
  · exact jumps_target_of_jumpWhen hexec hpass (htest.2 hzero) hnonneg
  · exact jumps_fallthrough_of_jumpWhen hexec hpass (htest.not.2 hne)

end Sys2Proof.Machine
end

section
/-! LT and EQ (spec/44_compare.md), which store through `storeResult` too: their ALU results always fit, so there is no
Overflow case (rule R118). The statements about them (O3, O4). -/

namespace Sys2Proof.Machine

/-- A storing instruction whose ALU answers a test stores 1 or 0 as an integer, by that test. -/
theorem storesAndAdvances_of_test {i : Instr} {op : Nat} {alu : Cell → Cell → Option Cell} {m1 m2 m3 : Mode} {s : State}
    (hi : exec i s = (storeResult op alu m1 m2 m3 s).outcome) {p : Prop} [Decidable p]
    (halu : alu (s.operand m1 1) (s.operand m2 2) = some (if p then 1 else 0))
    (hpass : Passes s (storeAccesses m1 m2 m3 s)) :
    StoresAndAdvances i s (storeAccesses m1 m2 m3 s) (s.target m3 3) (if p then 1 else 0) := by
  rw [← toInt_ite_one_zero p]
  exact storesAndAdvances_of_storeResult hi hpass halu

/-- The equality test of rule R181 compares whole values: two cells are equal where their integers are. -/
theorem aluEq_eq_toInt_test (a b : Cell) : aluEq a b = some (if a.toInt = b.toInt then 1 else 0) := by
  simp only [aluEq, BitVec.toInt_inj]

/-- Settles O3: LT stores through `aluLt`, which answers the signed comparison. -/
theorem ltStoresTheSignedComparison : Obligations.LtStoresTheSignedComparison := by
  intro m1 m2 m3 s
  have hexec : exec (.lt m1 m2 m3) s = (storeResult 7 aluLt m1 m2 m3 s).outcome := rfl
  refine ⟨?_, stopsAtFirstBadAccess_of_storeResult hexec, storesAndAdvances_of_test hexec rfl⟩
  rw [toInt_encode rfl, encodeNat]; push_cast; rfl

/-- Settles O4: EQ stores through `aluEq`, which answers the equality of the operands' integers
(`aluEq_eq_toInt_test`). -/
theorem eqStoresTheEqualityTest : Obligations.EqStoresTheEqualityTest := by
  intro m1 m2 m3 s
  have hexec : exec (.eq m1 m2 m3) s = (storeResult 8 aluEq m1 m2 m3 s).outcome := rfl
  refine ⟨?_, stopsAtFirstBadAccess_of_storeResult hexec,
    storesAndAdvances_of_test hexec (aluEq_eq_toInt_test _ _)⟩
  rw [toInt_encode rfl, encodeNat]; push_cast; rfl

end Sys2Proof.Machine
end

section
/-! ARB (spec/45_relbase.md): its cases, and the statement about it (O9). -/

namespace Sys2Proof.Machine

/-- Growth does not depend on the relative base. -/
theorem Grows.setRb {s t : State} {n : Nat} (h : Grows s t n) (v : Cell) : Grows (s.setRb v) (t.setRb v) n where
  grew := ⟨congrArg (·.setRb v) h.grew.1, h.cells⟩
  wf := h.wf
  keys := h.keys

/-- ARB, all cases (rules R118, R190): the first stop of its accesses, else Overflow(9) where the sum of the old
relative base and the operand has no result, else the new relative base and the advance of `ip`. -/
theorem execArb_eq (m : Mode) (s : State) :
    ∃ g, Grows s g (s.lenAfter (valueAccesses m 1 s)) ∧
      execArb m s = .next (match (walk s.cfg s.len (valueAccesses m 1 s)).1, aluAdd s.rb (s.operand m 1) with
        | some x, _ => g.raise x
        | none, none => g.raise { reason := .overflow, info := 9 }
        | none, some r => (g.setRb r).setIp (s.ip + 2)) := by
  obtain ⟨g, hg, hres⟩ := resolveValue_eq m 1 s
  refine ⟨g, hg, ?_⟩
  unfold execArb
  rw [hres]
  cases (walk s.cfg s.len (valueAccesses m 1 s)).1 with
  | some x => rfl
  | none =>
    simp only [Res.bind, hg.rb]
    cases aluAdd s.rb (s.operand m 1) with
    | none => rfl
    | some r => simp only [orOverflow, Res.outcome, hg.ip]

/-- Settles O9: the three cases of `execArb_eq`, where `aluAdd` narrows the exact sum. -/
theorem arbAddsToTheRelativeBase : Obligations.ArbAddsToTheRelativeBase := by
  intro m1 x2 x3 s
  obtain ⟨g, hg, hexec⟩ := execArb_eq m1 s
  refine ⟨fun h2 h3 => ?_, fun x hx => ?_, fun hpass hsum => ?_, fun hpass hsum => ?_⟩
  · rw [toInt_encode (i := .arb m1 x2 x3) (unusedDigits_wellFormed h2 h3), encodeNat]; push_cast; rfl
  · rw [hx] at hexec
    exact ⟨g.raise x, hexec, hg.raise x⟩
  · rw [walk_of_passes hpass, aluAdd, narrow_of_not_inI64 hsum] at hexec
    exact ⟨g.raise _, hexec, hg.raise _⟩
  · obtain ⟨r, hr, hexact⟩ := narrow_of_inI64 hsum
    rw [walk_of_passes hpass, aluAdd, hr] at hexec
    obtain ⟨hframe, hcells⟩ := (hg.setRb r).setIp (s.ip + 2)
    exact ⟨_, hexec, hframe, hexact, hcells⟩

end Sys2Proof.Machine
end

section
/-! HLT (spec/46_halt.md): its meaning, the cells that halt, and the statement about it (O10). -/

namespace Sys2Proof.Machine

/-- HLT stops with Finished(0), whatever its digits (rule R200). -/
theorem exec_hlt (x1 x2 x3 : Nat) (s : State) :
    exec (.hlt x1 x2 x3) s = .next (s.raise { reason := .finished, info := 0 }) := rfl

theorem hlt_wellFormed {x1 x2 x3 : Nat} (h1 : x1 ≤ 9) (h2 : x2 ≤ 9) (h3 : x3 ≤ 9) :
    (Instr.hlt x1 x2 x3).wellFormed = true :=
  (Instr.wellFormed_iff _).2 ⟨le_rfl, h1, h2, h3⟩

/-- A cell of at most five digits that ends in 99 is a halt with its three high digits (rules R83, R111). -/
theorem exists_decode_eq_hlt {c : Cell} (h0 : 0 ≤ c.toInt) (h1 : c.toInt ≤ 99999) (h99 : c.toInt % 100 = 99) :
    ∃ x1 x2 x3, decode c = .ok (.hlt x1 x2 x3) := by
  obtain ⟨f, hf⟩ := exists_decodeFields h0 h1
  obtain ⟨hr, hv⟩ := decodeFields_eq_some_iff.1 hf
  have hop : f.op = 99 := by
    have hle := hr.op_le
    rw [Fields.value] at hv
    omega
  exact ⟨f.m1, f.m2, f.m3, (decode_of_value hr hv).trans (if_pos hop)⟩

/-- Settles O10: `exec_hlt` is the effect, a step reaches it by `exists_decode_eq_hlt`, and `run` does not start the
engine from Finished. -/
theorem hltFinishes : Obligations.HltFinishes := by
  intro s
  refine ⟨fun x1 x2 x3 => ⟨fun h1 h2 h3 => ?_, exec_hlt x1 x2 x3 s⟩, fun hr hip h0 h1 h99 => ?_,
    hostRun_of_not_startable rfl⟩
  · rw [toInt_encode (hlt_wellFormed h1 h2 h3), encodeNat]; push_cast; rfl
  · obtain ⟨x1, x2, x3, hd⟩ := exists_decode_eq_hlt h0 h1 h99
    exact (step_of_decode_ok hr hip hd).trans (exec_hlt x1 x2 x3 s)

end Sys2Proof.Machine
end

section
/-! The statements about stops (spec/60_exceptions.md): a stop is precise (O12), a terminal stop is final (O39). -/

namespace Sys2Proof.Machine

/-! ### Precise stops -/

/-- A stop raised after growth has changed nothing else (rules R23, R112). -/
theorem Grows.raise_precise {s g : State} {n : Nat} (hg : Grows s g n) (hlen : s.len ≤ n) (x : Status) :
    Stopped s (g.raise x) (g.raise x).status (g.raise x).len ∧ s.len ≤ (g.raise x).len := by
  obtain rfl := hg.len
  exact ⟨hg.raise x, hlen⟩

/-- A completed instruction still runs, so one that does not has raised a stop (rules R112, R113). -/
theorem exec_stop_precise {i : Instr} {s t : State} (hr : s.status.reason = .running) (ht : t.status.reason ≠ .running)
    (h : exec i s = .next t) : Stopped s t t.status t.len ∧ s.len ≤ t.len := by
  obtain ⟨g, n, hg, hlen, _, ⟨x, _, _, rfl⟩ | hc⟩ := exec_cases h
  · exact hg.raise_precise hlen x
  · have hsame : t.status = s.status := hc.status_eq.trans hg.status
    exact absurd (hsame ▸ hr) ht

/-- Settles O12: a stop of the prologue is raised before any growth, and any other stop is that of the instruction. -/
theorem everyStopIsPrecise : Obligations.EveryStopIsPrecise := by
  intro s t hr ht
  refine ⟨fun i => exec_stop_precise hr ht, fun h => ?_⟩
  rcases step_cases_running hr h with ⟨x, _, _, rfl⟩ | ⟨i, _, _, hexec⟩
  · exact (Grows.refl s).raise_precise le_rfl x
  · exact exec_stop_precise hr ht hexec

/-! ### Final stops -/

/-- Settles O39: `runFor_of_terminal`, by induction on the number of steps. -/
theorem terminalStopsAreFinal : Obligations.TerminalStopsAreFinal :=
  fun _ _ => runFor_of_terminal

end Sys2Proof.Machine
end
